-- ==== Sys2Proof/Word.lean ====
section
/-! DEFINITION. The word types of the hardware (00_scope.md R11, R12) and of the table words (30_encoding.md R92). -/

namespace Sys2Proof

/-- One byte: a packed pixel, a channel, or an element of `IMG` or `BUF` (R11). -/
abbrev Byte := BitVec 8

/-- A row of opcode_table.json: the table word left-aligned in 32 bits (R92). -/
abbrev TableWord := BitVec 32

end Sys2Proof
end

