-- ==== Sys2Proof/Config.lean ====
section
/-! DEFINITION. The configuration constants (00_scope.md R8, 10_state.md R21), and the free value of the model. -/

namespace Sys2Proof

/-- A quadrant tag, in the source's listing order (30_encoding.md R85). -/
inductive Quadrant where
  | tl | bl | tr | br
  deriving DecidableEq, Repr

/-- The build's constants. No operation writes one (R22). `LANE_MAP(0, k)` and `LANE_MAP(1, k)` are entry `k` of
`laneFirst` and of `laneSecond` (log 12). `WIRE_ORDER` has one value and is the table `wireOrder` (R153). -/
structure Config where
  imgRows           : Nat
  imgCols           : Nat
  ledsPerStrip      : Nat
  bitmatrixPatterns : Nat
  numStrips         : Nat
  stripAssignment   : List Quadrant
  laneFirst         : List (Fin 8)
  laneSecond        : List (Fin 8)
  deriving DecidableEq, Repr

/-- The persistence collaborator's answer to one PERSIST (43_pattern_sequencer.md R182). -/
inductive Answer where
  | ok | fail
  deriving DecidableEq, Repr, Inhabited

/-- DESIGN CHOICE, safe (log 7). A FREE VALUE: the collaborator's answer at the `n`-th draw made after the scheduled
answers have run out. R182: "an input of the model, under no law"; it has no body, so nothing can be proved of it. -/
opaque Config.freeAnswer : Nat → Answer

end Sys2Proof
end

