-- ==== Sys2Proof/Syntax.lean ====
section
/-! DEFINITION. The operations of 30_encoding.md R93, one constructor per row of opcode_table.json, each with all the
operands its rule gives it, and the form in which the host hands one over. -/

namespace Sys2Proof

/-- The operand `wire[·][c]` of MUXBIT and SERCHAN: one channel byte per strip, for at most four strips
(10_state.md R29). Entries `k ≥ NUM_STRIPS` name no strip and are not read (log 6). -/
structure StripBytes where
  strip0 : Byte
  strip1 : Byte
  strip2 : Byte
  strip3 : Byte
  deriving DecidableEq, Repr

/-- Every operand bit zero. -/
def StripBytes.zero : StripBytes := ⟨0, 0, 0, 0⟩

/-- The operations. `pattern`, `led` and `bufAbsentAt` are natural numbers because the source gives indices no width
(R11, R91; log 17). -/
inductive Instr where
  /-- UNPACK_R (R111). -/
  | unpackR (px : Byte)
  /-- UNPACK_G (R112). -/
  | unpackG (px : Byte)
  /-- UNPACK_B (R113). -/
  | unpackB (px : Byte)
  /-- RESCALE3 (R114). -/
  | rescale3 (f : BitVec 3)
  /-- RESCALE2 (R115). -/
  | rescale2 (f : BitVec 2)
  /-- EXPAND (R116). -/
  | expand (px : Byte)
  /-- RESOLVE_TL (R133). -/
  | resolveTl (pattern led : Nat)
  /-- RESOLVE_BL (R134). -/
  | resolveBl (pattern led : Nat)
  /-- RESOLVE_TR (R135). -/
  | resolveTr (pattern led : Nat)
  /-- RESOLVE_BR (R136). -/
  | resolveBr (pattern led : Nat)
  /-- GETCOLOR (R142). -/
  | getcolor (pattern led : Nat) (q : Quadrant)
  /-- REORDER (R152). -/
  | reorder (red green blue : Byte)
  /-- MUXBIT (R156). -/
  | muxbit (led : Nat) (c : BitVec 2) (i : BitVec 3) (wire : StripBytes)
  /-- SERCHAN (R158). -/
  | serchan (led : Nat) (c : BitVec 2) (wire : StripBytes)
  /-- ENCLED (R160). -/
  | encled (pattern led : Nat)
  /-- ENCODE (R164); `image` and `buffer` say whether the reference is present (R163). -/
  | encode (pattern : Nat) (image buffer : Bool)
  /-- ZEROBUF (R181). -/
  | zerobuf
  /-- PERSIST (R182). -/
  | persist
  /-- TRANSMIT (R183). -/
  | transmit
  /-- RUN (R185); `bufAbsentAt` is the one pattern whose ENCODE is given an absent buffer reference, if any (R184). -/
  | run (image : Bool) (bufAbsentAt : Option Nat)
  deriving DecidableEq, Repr

/-- One request of the host: a table word, and beside it the operands that have no place in the table word
(opcode_table.json's `operands_outside_table_word`). An operation ignores the operands it does not have. -/
structure Call where
  word        : TableWord
  pattern     : Nat
  led         : Nat
  wire        : StripBytes
  bufAbsentAt : Option Nat
  deriving DecidableEq, Repr

/-- A table word with every operand beside it zero, and no buffer absent. -/
def Call.ofWord (w : TableWord) : Call := ⟨w, 0, 0, StripBytes.zero, none⟩

/-- Why a table word names no operation (R92, R94). -/
inductive DecodeError where
  /-- `op_id` 17 to 31 (R94). -/
  | reservedOpId
  /-- Channel position 3 in MUXBIT or SERCHAN: "not an operation" (R94). -/
  | channelThree
  /-- A 1 where opcode_table.json's row fixes padding 0 (R92; log 11). -/
  | paddingNotZero
  deriving DecidableEq, Repr

end Sys2Proof
end

