-- ==== Sys2Proof/WellFormed.lean ====
section
/-! DEFINITION. Which terms of `Instr` are operations. The well-formedness of a configuration is
`Config.WellFormed` in Machine/Setup.lean. -/

namespace Sys2Proof

/-- Channel position `c` is 0, 1 or 2; "`c = 3` in MUXBIT or SERCHAN" is "not an operation" (30_encoding.md R94).
Every other operand takes every value of its type (R81, R85, R91, R95). -/
def Instr.wellFormed : Instr → Bool
  | .unpackR _ => true
  | .unpackG _ => true
  | .unpackB _ => true
  | .rescale3 _ => true
  | .rescale2 _ => true
  | .expand _ => true
  | .resolveTl _ _ => true
  | .resolveBl _ _ => true
  | .resolveTr _ _ => true
  | .resolveBr _ _ => true
  | .getcolor _ _ _ => true
  | .reorder _ _ _ => true
  | .muxbit _ c _ _ => c != 3
  | .serchan _ c _ => c != 3
  | .encled _ _ => true
  | .encode _ _ _ => true
  | .zerobuf => true
  | .persist => true
  | .transmit => true
  | .run _ _ => true

end Sys2Proof
end

