-- ==== Sys2Proof/Decode.lean ====
section
/-! DEFINITION. The decoder of table words (30_encoding.md R92, R93; opcode_table.json), total, rejecting by name, and
after it the encoder and the table's rows. Bit 31 is the first bit of the table word. -/

namespace Sys2Proof

/-- The operation, if the lowest `n` bits, which the row fixes as padding, are all 0 (R92; log 11). -/
def padded (w : TableWord) (n : Nat) (i : Instr) : Except DecodeError Instr :=
  if w.extractLsb' 0 n = 0 then .ok i else .error .paddingNotZero

/-- `op_id`, bits 31 to 27 (R92). -/
def opId (w : TableWord) : BitVec 5 := w.extractLsb' 27 5

/-- The two-bit operand of GETCOLOR, RESOLVE, SERCHAN and MUXBIT: bits 26 and 25. -/
def operand2 (w : TableWord) : BitVec 2 := w.extractLsb' 25 2

/-- The byte operand of UNPACK_* and EXPAND: bits 26 to 19. -/
def operand8 (w : TableWord) : Byte := w.extractLsb' 19 8

/-- The tag a QUAD2 value names: 0 TL, 1 BL, 2 TR, 3 BR (R85). -/
def quadrantOf (q : BitVec 2) : Quadrant :=
  match q.toNat with
  | 0 => .tl
  | 1 => .bl
  | 2 => .tr
  | _ => .br

/-- The operation a request names (R93). -/
def decode (k : Call) : Except DecodeError Instr :=
  match (opId k.word).toNat with
  | 0 => padded k.word 19 (.unpackR (operand8 k.word))
  | 1 => padded k.word 19 (.unpackG (operand8 k.word))
  | 2 => padded k.word 19 (.unpackB (operand8 k.word))
  | 3 => padded k.word 24 (.rescale3 (k.word.extractLsb' 24 3))
  | 4 => padded k.word 25 (.rescale2 (operand2 k.word))
  | 5 => padded k.word 19 (.expand (operand8 k.word))
  | 6 =>
    match quadrantOf (operand2 k.word) with
    | .tl => padded k.word 25 (.resolveTl k.pattern k.led)
    | .bl => padded k.word 25 (.resolveBl k.pattern k.led)
    | .tr => padded k.word 25 (.resolveTr k.pattern k.led)
    | .br => padded k.word 25 (.resolveBr k.pattern k.led)
  | 7 => padded k.word 25 (.getcolor k.pattern k.led (quadrantOf (operand2 k.word)))
  | 8 =>
    padded k.word 3
      (.reorder (k.word.extractLsb' 19 8) (k.word.extractLsb' 11 8) (k.word.extractLsb' 3 8))
  | 9 =>
    if operand2 k.word = 3 then .error .channelThree
    else padded k.word 22 (.muxbit k.led (operand2 k.word) (k.word.extractLsb' 22 3) k.wire)
  | 10 =>
    if operand2 k.word = 3 then .error .channelThree
    else padded k.word 25 (.serchan k.led (operand2 k.word) k.wire)
  | 11 => padded k.word 27 (.encled k.pattern k.led)
  | 12 => padded k.word 25 (.encode k.pattern (k.word.getLsbD 26) (k.word.getLsbD 25))
  | 13 => padded k.word 27 .zerobuf
  | 14 => padded k.word 27 .persist
  | 15 => padded k.word 27 .transmit
  | 16 => padded k.word 26 (.run (k.word.getLsbD 26) k.bufAbsentAt)
  | _ => .error .reservedOpId

/-- The QUAD2 value of a tag (R85). -/
def quadrantBits : Quadrant → BitVec 2
  | .tl => 0
  | .bl => 1
  | .tr => 2
  | .br => 3

/-- The request that names an operation, every operand it does not have at zero (R93). -/
def encode : Instr → Call
  | .unpackR px => Call.ofWord (0#5 ++ px ++ 0#19)
  | .unpackG px => Call.ofWord (1#5 ++ px ++ 0#19)
  | .unpackB px => Call.ofWord (2#5 ++ px ++ 0#19)
  | .rescale3 f => Call.ofWord (3#5 ++ f ++ 0#24)
  | .rescale2 f => Call.ofWord (4#5 ++ f ++ 0#25)
  | .expand px => Call.ofWord (5#5 ++ px ++ 0#19)
  | .resolveTl p l => { Call.ofWord (6#5 ++ quadrantBits .tl ++ 0#25) with pattern := p, led := l }
  | .resolveBl p l => { Call.ofWord (6#5 ++ quadrantBits .bl ++ 0#25) with pattern := p, led := l }
  | .resolveTr p l => { Call.ofWord (6#5 ++ quadrantBits .tr ++ 0#25) with pattern := p, led := l }
  | .resolveBr p l => { Call.ofWord (6#5 ++ quadrantBits .br ++ 0#25) with pattern := p, led := l }
  | .getcolor p l q => { Call.ofWord (7#5 ++ quadrantBits q ++ 0#25) with pattern := p, led := l }
  | .reorder r g b => Call.ofWord (8#5 ++ r ++ g ++ b ++ 0#3)
  | .muxbit l c i w => { Call.ofWord (9#5 ++ c ++ i ++ 0#22) with led := l, wire := w }
  | .serchan l c w => { Call.ofWord (10#5 ++ c ++ 0#25) with led := l, wire := w }
  | .encled p l => { Call.ofWord (11#5 ++ 0#27) with pattern := p, led := l }
  | .encode p m b => { Call.ofWord (12#5 ++ BitVec.ofBool m ++ BitVec.ofBool b ++ 0#25) with pattern := p }
  | .zerobuf => Call.ofWord (13#5 ++ 0#27)
  | .persist => Call.ofWord (14#5 ++ 0#27)
  | .transmit => Call.ofWord (15#5 ++ 0#27)
  | .run m a => { Call.ofWord (16#5 ++ BitVec.ofBool m ++ 0#26) with bufAbsentAt := a }

/-- One row of opcode_table.json: a word belongs to it when it agrees with `value` under `mask`. -/
structure TableRow where
  value : TableWord
  mask  : TableWord
  deriving DecidableEq, Repr

/-- The row's `match` and `mask`, copied from opcode_table.json. -/
def tableRow : Instr → TableRow
  | .unpackR _ => ⟨0x00000000, 0xF807FFFF⟩
  | .unpackG _ => ⟨0x08000000, 0xF807FFFF⟩
  | .unpackB _ => ⟨0x10000000, 0xF807FFFF⟩
  | .rescale3 _ => ⟨0x18000000, 0xF8FFFFFF⟩
  | .rescale2 _ => ⟨0x20000000, 0xF9FFFFFF⟩
  | .expand _ => ⟨0x28000000, 0xF807FFFF⟩
  | .resolveTl _ _ => ⟨0x30000000, 0xFFFFFFFF⟩
  | .resolveBl _ _ => ⟨0x32000000, 0xFFFFFFFF⟩
  | .resolveTr _ _ => ⟨0x34000000, 0xFFFFFFFF⟩
  | .resolveBr _ _ => ⟨0x36000000, 0xFFFFFFFF⟩
  | .getcolor _ _ _ => ⟨0x38000000, 0xF9FFFFFF⟩
  | .reorder _ _ _ => ⟨0x40000000, 0xF8000007⟩
  | .muxbit _ _ _ _ => ⟨0x48000000, 0xF83FFFFF⟩
  | .serchan _ _ _ => ⟨0x50000000, 0xF9FFFFFF⟩
  | .encled _ _ => ⟨0x58000000, 0xFFFFFFFF⟩
  | .encode _ _ _ => ⟨0x60000000, 0xF9FFFFFF⟩
  | .zerobuf => ⟨0x68000000, 0xFFFFFFFF⟩
  | .persist => ⟨0x70000000, 0xFFFFFFFF⟩
  | .transmit => ⟨0x78000000, 0xFFFFFFFF⟩
  | .run _ _ => ⟨0x80000000, 0xFBFFFFFF⟩

/-- The operation the decoder reads from a table word of `nbits` bits, every operand beside it zero. -/
def decodeTableWord (nbits w : Nat) : Option Instr :=
  if nbits ≤ 32 ∧ w < 2 ^ nbits then
    match decode (Call.ofWord (BitVec.ofNat 32 w)) with
    | .ok i => some i
    | .error _ => none
  else none

end Sys2Proof
end

