-- ==== Sys2Proof/Machine/Setup.lean ====
section
/-! DEFINITION. What a well-formed configuration is (00_scope.md R9), the shapes of the two memories (20_memory.md R51,
R54), the lane map and its default (R10), and the build the reset state holds. -/

namespace Sys2Proof

/-- R9, in the rule's order: even dimensions, at most four strips, one quadrant a strip, the two geometry
constraints, and `LANE_MAP` injective on `{0,1} × [0, NUM_STRIPS)` with values in `[0, 7]` (the values by `Fin 8`). -/
abbrev Config.WellFormed (c : Config) : Prop :=
  c.imgRows % 2 = 0 ∧ c.imgCols % 2 = 0 ∧ c.numStrips ≤ 4 ∧
  c.stripAssignment.length = c.numStrips ∧
  c.ledsPerStrip ≤ c.imgRows / 2 ∧ c.bitmatrixPatterns ≤ c.imgCols ∧
  c.laneFirst.length = c.numStrips ∧ c.laneSecond.length = c.numStrips ∧
  (c.laneFirst ++ c.laneSecond).Nodup

/-- Bytes of `IMG` (R24). -/
def Config.imgLen (c : Config) : Nat := c.imgRows * c.imgCols

/-- Bytes of `BUF` (R25). -/
def Config.bufLen (c : Config) : Nat := c.ledsPerStrip * 12

/-- `LANE_MAP(s, k)` (R8, R155). A well-formed configuration has an entry for every strip, so the default of the
lookup is never met. -/
def Config.laneMap (c : Config) (s k : Nat) : Nat :=
  ((if s = 0 then c.laneFirst else c.laneSecond).getD k 0).val

/-- `STRIP_ASSIGNMENT[k]` (R23); the default of the lookup is never met for `k < NUM_STRIPS`. -/
def Config.quadrant (c : Config) (k : Nat) : Quadrant := c.stripAssignment.getD k .tl

/-- R54: the byte of pair `j` of channel position `c` of LED `led`. -/
def bufIndex (led c j : Nat) : Nat := 12 * led + 4 * c + j

/-- R51: row-major. PRESUMED, unsafe (log 14: the spec marks the formula as general knowledge). -/
def Config.imgIndex (c : Config) (row col : Nat) : Nat := row * c.imgCols + col

/-- `LANE_MAP(0, k) = 4 + k` for `k < n` (R10): the upper nibble. -/
def upperLanes (n : Nat) : List (Fin 8) := (List.range n).map fun k => Fin.ofNat 8 (4 + k)

/-- `LANE_MAP(1, k) = k` for `k < n` (R10): the lower nibble. -/
def lowerLanes (n : Nat) : List (Fin 8) := (List.range n).map fun k => Fin.ofNat 8 k

/-- A configuration with the default `LANE_MAP` of R10. -/
def Config.withDefaultLanes (rows cols leds patterns : Nat) (strips : List Quadrant) : Config :=
  { imgRows := rows, imgCols := cols, ledsPerStrip := leds, bitmatrixPatterns := patterns
    numStrips := strips.length, stripAssignment := strips
    laneFirst := upperLanes strips.length, laneSecond := lowerLanes strips.length }

/-- DESIGN CHOICE, unsafe (log 1). The build of State.reset: the one scenario the source gives values for
(95_test_vectors.md V8, P1). -/
def resetConfig : Config := Config.withDefaultLanes 2 2 1 1 [.tl]

end Sys2Proof
end

