-- ==== Sys2Proof/Machine/State.lean ====
section
/-! DEFINITION. The state of the machine (10_state.md), the reasons a step can stop, and the state after reset. -/

namespace Sys2Proof.Machine

/-- An ExpandedColor, in storage order (30_encoding.md R83). -/
structure Color where
  red   : Byte
  green : Byte
  blue  : Byte
  deriving DecidableEq, Repr

/-- A colour in wire order (R87). -/
structure Wire3 where
  w0 : Byte
  w1 : Byte
  w2 : Byte
  deriving DecidableEq, Repr

/-- A present result of RESOLVE (R86). -/
structure Coord where
  row : Nat
  col : Nat
  deriving DecidableEq, Repr

/-- `enc_status` (10_state.md R33). -/
inductive EncStatus where
  | ok | invalidArgument
  deriving DecidableEq, Repr

/-- `run_status` (R33). -/
inductive RunStatus where
  | success | failure
  deriving DecidableEq, Repr

/-- What an operation hands back to "the immediate caller" (R33, R34). -/
inductive Result where
  /-- The operation hands back nothing beside what it does to `BUF`. -/
  | nothing
  /-- UNPACK_R, UNPACK_G. -/
  | field3 (v : BitVec 3)
  /-- UNPACK_B. -/
  | field2 (v : BitVec 2)
  /-- RESCALE3, RESCALE2. -/
  | channel (v : Byte)
  /-- EXPAND, GETCOLOR. -/
  | color (v : Color)
  /-- RESOLVE_*: `none` is `absent` (R86). -/
  | coord (v : Option Coord)
  /-- REORDER. -/
  | wire (v : Wire3)
  /-- ENCODE. -/
  | encStatus (v : EncStatus)
  /-- PERSIST. -/
  | answer (v : Answer)
  /-- RUN. -/
  | runStatus (v : RunStatus)
  deriving DecidableEq, Repr

/-- A byte space: address and byte pairs, addresses rising, no entry equal to what an unlisted address reads as
(`Memory.wf`; log 2). -/
abbrev Memory := List Host.Cell

/-- What the host does between two operations (43_pattern_sequencer.md R189; log 5, log 18). -/
inductive HostAction where
  /-- Invoke an operation. -/
  | invoke (call : Call)
  /-- Write one byte of `IMG`. -/
  | writeImg (n : Nat) (v : Byte)
  /-- Write one byte of `BUF`. -/
  | writeBuf (n : Nat) (v : Byte)
  deriving DecidableEq, Repr

/-- Everything that persists between operations (R20), and the model's own fields for the host: the result last
handed back (log 4), its coming requests (log 5), the collaborator's coming answers and the counter of free ones
(log 7). The working registers and loop positions are local values of the meanings (R28; log 3). -/
structure State where
  cfg       : Config
  img       : Memory
  buf       : Memory
  persisted : List (List Byte)
  result    : Result
  pending   : List HostAction
  answers   : List Answer
  draws     : Nat
  deriving DecidableEq, Repr

/-- Why the machine stops with a fault. -/
inductive Fault where
  /-- MUXBIT, SERCHAN or ENCLED with `led ≥ LEDS_PER_STRIP`, outside the operand's range (R156, R158, R160): the bytes
  it names are not in `BUF` (R56). Safe (log 9). -/
  | ledOutOfRange
  /-- The host writes a byte of `IMG` or `BUF` that does not exist (R51, R54). Safe (log 18). -/
  | noSuchByte
  deriving DecidableEq, Repr

/-- Why a request has no meaning. -/
inductive Refusal where
  /-- An instruction without a meaning yet, by name. Safe. -/
  | notModelled (mnemonic : String)
  /-- Any operation that reads the configuration, under one that is not well formed: "A model gives no meaning to a
  configuration that is not well formed" (R9). Safe (log 8). -/
  | illFormedConfiguration
  /-- MUXBIT or SERCHAN with channel position 3: "a model refuses it" (R94). Safe (log 11). -/
  | channelThree
  /-- A table word that names no operation (R92, R94). Safe (log 11). -/
  | notAnOperation (e : DecodeError)
  /-- TRANSMIT: "A model gives TRANSMIT no step" (R183). Safe (log 10). -/
  | transmitNotSpecified
  deriving DecidableEq, Repr

/-- The point before the host's first operation (70_reset_and_hazards.md R230, R231; 10_state.md R39): the build's
constants (log 1), memories with nothing written (log 2), `PERSISTED` empty, no operation in progress; the model's own
fields empty (log 4, 5, 7). -/
def State.reset : State :=
  { cfg := resetConfig, img := [], buf := [], persisted := [], result := .nothing
    pending := [], answers := [], draws := 0 }

end Sys2Proof.Machine
end

