-- ==== Sys2Proof/Machine/Operands.lean ====
section
/-! DEFINITION. Operand assembly (30_encoding.md R90), the wire-order table (R87) and the bit geometry of the
serializer (42_bitstream_encoder.md R154). -/

namespace Sys2Proof.Machine

/-- R90: mask, then shift right. -/
def maskShift (px mask : Byte) (n : Nat) : Byte := (px &&& mask) >>> n

/-- A channel of a colour. -/
inductive Channel where
  | red | green | blue
  deriving DecidableEq, Repr

/-- The byte of a channel (R83). -/
def Color.get (v : Color) : Channel → Byte
  | .red => v.red
  | .green => v.green
  | .blue => v.blue

/-- `WIRE_ORDER` (R87, R153): position 0 is green, 1 is red, 2 is blue. -/
def wireOrder (c : Nat) : Channel :=
  match c with
  | 0 => .green
  | 1 => .red
  | _ => .blue

/-- `w[c]` of a colour in wire order (R87). -/
def Wire3.get (w : Wire3) (c : Nat) : Byte :=
  match c with
  | 0 => w.w0
  | 1 => w.w1
  | _ => w.w2

/-- Black, the zero colour (R83). -/
def black : Color := ⟨0, 0, 0⟩

end Sys2Proof.Machine

namespace Sys2Proof

/-- `wire[k][c]` of the operand, for strip `k` (10_state.md R29). -/
def StripBytes.get (w : StripBytes) (k : Nat) : Byte :=
  match k with
  | 0 => w.strip0
  | 1 => w.strip1
  | 2 => w.strip2
  | _ => w.strip3

/-- The operand that holds `f k` for strip `k`. -/
def StripBytes.ofFn (f : Nat → Byte) : StripBytes := ⟨f 0, f 1, f 2, f 3⟩

end Sys2Proof

namespace Sys2Proof.Machine

/-- R154: the bit of a channel byte taken at iteration `i`. -/
def bitOf (i : Nat) : Nat := 7 - i

/-- R154: the pair. -/
def pairOf (i : Nat) : Nat := i / 2

/-- R154: the sub-bit within the pair. -/
def subOf (i : Nat) : Nat := i % 2

/-- One bit of a byte, at position `lane` of a byte (R155, R156). -/
def laneBit (x : Byte) (b lane : Nat) : Byte := (BitVec.ofBool (x.getLsbD b)).setWidth 8 <<< lane

end Sys2Proof.Machine
end

