-- ==== Sys2Proof/Machine/Ops.lean ====
section
/-! DEFINITION. The named operations over the two memories (20_memory.md), over results and over the collaborators, and
the one way an operation fails (60_exceptions.md R201). -/

namespace Sys2Proof.Machine

/-- What a byte nothing has written reads as. DESIGN CHOICE, unsafe (log 2): R39 leaves `IMG` and `BUF` unspecified. -/
def unwritten : Byte := 0xFF

/-- The canonical form: addresses strictly rising, and no entry equal to what an unlisted address reads as. -/
abbrev Memory.wf (m : Memory) : Prop :=
  m.Pairwise (fun a b => a.1 < b.1) ∧ ∀ c ∈ m, c.2 ≠ unwritten

/-- Every listed address is below `n`. -/
abbrev Memory.within (m : Memory) (n : Nat) : Prop := ∀ c ∈ m, c.1 < n

/-- One byte (R52, R55). -/
def Memory.read : Memory → Nat → Byte
  | [], _ => unwritten
  | (a, b) :: m, n => if a = n then b else Memory.read m n

/-- Unlist an address. -/
def Memory.erase (m : Memory) (n : Nat) : Memory := m.filter fun c => c.1 != n

/-- List an address that is not listed, in its place. -/
def Memory.place : Memory → Nat → Byte → Memory
  | [], n, v => [(n, v)]
  | (a, b) :: m, n, v => if n < a then (n, v) :: (a, b) :: m else (a, b) :: Memory.place m n v

/-- `BufWrite(N, v)` (R57), and the host's writes. -/
def Memory.write (m : Memory) (n : Nat) (v : Byte) : Memory :=
  if v = unwritten then m.erase n else Memory.place (m.erase n) n v

/-- `BufOr(N, v)` (R56): `BUF[N] <- BUF[N] | v`. -/
def Memory.or (m : Memory) (n : Nat) (v : Byte) : Memory := m.write n (m.read n ||| v)

/-- `ImgRead(row, col)` (R52). -/
def imgRead (c : Config) (img : Memory) (row col : Nat) : Byte := img.read (c.imgIndex row col)

/-- All bytes of `BUF` in index order: the copy PERSIST hands over (R37). -/
def bufCopy (s : State) : List Byte := (List.range s.cfg.bufLen).map s.buf.read

/-- Hand a result to the immediate caller (R34). -/
def State.withResult (s : State) (r : Result) : State := { s with result := r }

/-- Hand back nothing beside the new `BUF`. -/
def State.withBuf (s : State) (b : Memory) : State := { s with buf := b, result := .nothing }

/-- Go on only under a well-formed configuration (00_scope.md R9, 70_reset_and_hazards.md R233; log 8). -/
def requireConfig (s : State) (k : Host.Outcome State Fault Refusal) : Host.Outcome State Fault Refusal :=
  if s.cfg.WellFormed then k else .refused .illFormedConfiguration

/-- `raise InvalidArgument` (60_exceptions.md R201, R209): the status, and nothing else; no state is saved, no mode
changes, control goes nowhere, and so there is no return from it (R211). -/
def raiseInvalidArgument (s : State) : State × EncStatus := (s, .invalidArgument)

/-- The collaborator's next answer: the next scheduled one, and a free value when none is scheduled (R182; log 7). -/
def drawAnswer (s : State) : State × Answer :=
  match s.answers with
  | a :: rest => ({ s with answers := rest }, a)
  | [] => ({ s with draws := s.draws + 1 }, Config.freeAnswer s.draws)

/-- The host writes one byte of `IMG` (10_state.md R20's table, R60; log 18). -/
def hostWriteImg (n : Nat) (v : Byte) (s : State) : Host.Outcome State Fault Refusal :=
  requireConfig s <|
    if n < s.cfg.imgLen then .next { s with img := s.img.write n v } else .fault .noSuchByte

/-- The host writes one byte of `BUF` (10_state.md R20's table, R60; log 18). -/
def hostWriteBuf (n : Nat) (v : Byte) (s : State) : Host.Outcome State Fault Refusal :=
  requireConfig s <|
    if n < s.cfg.bufLen then .next { s with buf := s.buf.write n v } else .fault .noSuchByte

/-- The host's request has been taken up. -/
def State.accept (s : State) (rest : List HostAction) : State := { s with pending := rest }

/-- The request for the operation whose table word is the low `nbits` bits of `w`, every operand beside it zero. -/
def fetchRequest (nbits w : Nat) : HostAction := .invoke (Call.ofWord (BitVec.ofNat 32 (w % 2 ^ nbits)))

end Sys2Proof.Machine
end

