-- ==== Sys2Proof/Machine/Expander.lean ====
section
/-! DEFINITION. UNPACK_R, UNPACK_G, UNPACK_B, RESCALE3, RESCALE2, EXPAND (40_color_expander.md). They read no
configuration and no memory (R110, R121), so no configuration is required of them (R233). -/

namespace Sys2Proof.Machine

/-- R111. -/
def unpackR (px : Byte) : BitVec 3 := (maskShift px 0b11100000 5).setWidth 3

/-- R112. -/
def unpackG (px : Byte) : BitVec 3 := (maskShift px 0b00011100 2).setWidth 3

/-- R113. -/
def unpackB (px : Byte) : BitVec 2 := (maskShift px 0b00000011 0).setWidth 2

/-- R114: `f × 32` in 8 bits. -/
def rescale3 (f : BitVec 3) : Byte := f.setWidth 8 * 32

/-- R115: `f × 64` in 8 bits. -/
def rescale2 (f : BitVec 2) : Byte := f.setWidth 8 * 64

/-- R116. -/
def expandPixel (px : Byte) : Color :=
  ⟨rescale3 (unpackR px), rescale3 (unpackG px), rescale2 (unpackB px)⟩

/-- UNPACK_R (R111). -/
def execUnpackR (px : Byte) (s : State) : Host.Outcome State Fault Refusal :=
  .next (s.withResult (.field3 (unpackR px)))

/-- UNPACK_G (R112). -/
def execUnpackG (px : Byte) (s : State) : Host.Outcome State Fault Refusal :=
  .next (s.withResult (.field3 (unpackG px)))

/-- UNPACK_B (R113). -/
def execUnpackB (px : Byte) (s : State) : Host.Outcome State Fault Refusal :=
  .next (s.withResult (.field2 (unpackB px)))

/-- RESCALE3 (R114). -/
def execRescale3 (f : BitVec 3) (s : State) : Host.Outcome State Fault Refusal :=
  .next (s.withResult (.channel (rescale3 f)))

/-- RESCALE2 (R115). -/
def execRescale2 (f : BitVec 2) (s : State) : Host.Outcome State Fault Refusal :=
  .next (s.withResult (.channel (rescale2 f)))

/-- EXPAND (R116). -/
def execExpand (px : Byte) (s : State) : Host.Outcome State Fault Refusal :=
  .next (s.withResult (.color (expandPixel px)))

end Sys2Proof.Machine
end

