-- ==== Sys2Proof/Machine/Flags.lean ====
section
/-! DEFINITION. The status outputs (10_state.md R33): the range check that gives `present` (41_quadrant_mapper.md R131)
and the reference check that gives `enc_status` (42_bitstream_encoder.md R163). -/

namespace Sys2Proof.Machine

/-- R131: `present` is `absent` exactly when one of the two indices is out of range. -/
abbrev isAbsent (c : Config) (pattern led : Nat) : Prop :=
  c.ledsPerStrip ≤ led ∨ c.bitmatrixPatterns ≤ pattern

/-- R163: ENCODE has both references. -/
def referencesPresent (image buffer : Bool) : Bool := image && buffer

end Sys2Proof.Machine
end

