-- ==== Sys2Proof/Machine/Mapper.lean ====
section
/-! DEFINITION. RESOLVE_TL, RESOLVE_BL, RESOLVE_TR, RESOLVE_BR, GETCOLOR (41_quadrant_mapper.md). -/

namespace Sys2Proof.Machine

/-- R132: the row of a top quadrant, "counts upward from the image's vertical center". -/
def topRow (c : Config) (led : Nat) : Nat := (c.imgRows / 2 - 1) - led

/-- R132: the row of a bottom quadrant. -/
def bottomRow (c : Config) (led : Nat) : Nat := c.imgRows / 2 + led

/-- R132: the column of a right quadrant. -/
def rightCol (c : Config) (pattern : Nat) : Nat := (c.imgCols / 2 + pattern) % c.bitmatrixPatterns

/-- R131: the range check comes before the formulas. -/
def checked (c : Config) (pattern led : Nat) (rc : Coord) : Option Coord :=
  if isAbsent c pattern led then none else some rc

/-- R133. -/
def resolveTL (c : Config) (pattern led : Nat) : Option Coord :=
  checked c pattern led ⟨topRow c led, pattern⟩

/-- R134. -/
def resolveBL (c : Config) (pattern led : Nat) : Option Coord :=
  checked c pattern led ⟨bottomRow c led, pattern⟩

/-- R135. -/
def resolveTR (c : Config) (pattern led : Nat) : Option Coord :=
  checked c pattern led ⟨topRow c led, rightCol c pattern⟩

/-- R136. -/
def resolveBR (c : Config) (pattern led : Nat) : Option Coord :=
  checked c pattern led ⟨bottomRow c led, rightCol c pattern⟩

/-- R130: `RESOLVE q`, the one of the four that `q` names. -/
def resolve (c : Config) (q : Quadrant) (pattern led : Nat) : Option Coord :=
  match q with
  | .tl => resolveTL c pattern led
  | .bl => resolveBL c pattern led
  | .tr => resolveTR c pattern led
  | .br => resolveBR c pattern led

/-- R142: the pixel's colour, or black where the coordinate is absent. -/
def getColor (c : Config) (img : Memory) (pattern led : Nat) (q : Quadrant) : Color :=
  match resolve c q pattern led with
  | none => black
  | some rc => expandPixel (imgRead c img rc.row rc.col)

/-- RESOLVE_TL (R133). -/
def execResolveTl (pattern led : Nat) (s : State) : Host.Outcome State Fault Refusal :=
  requireConfig s (.next (s.withResult (.coord (resolveTL s.cfg pattern led))))

/-- RESOLVE_BL (R134). -/
def execResolveBl (pattern led : Nat) (s : State) : Host.Outcome State Fault Refusal :=
  requireConfig s (.next (s.withResult (.coord (resolveBL s.cfg pattern led))))

/-- RESOLVE_TR (R135). -/
def execResolveTr (pattern led : Nat) (s : State) : Host.Outcome State Fault Refusal :=
  requireConfig s (.next (s.withResult (.coord (resolveTR s.cfg pattern led))))

/-- RESOLVE_BR (R136). -/
def execResolveBr (pattern led : Nat) (s : State) : Host.Outcome State Fault Refusal :=
  requireConfig s (.next (s.withResult (.coord (resolveBR s.cfg pattern led))))

/-- GETCOLOR (R142). -/
def execGetcolor (pattern led : Nat) (q : Quadrant) (s : State) : Host.Outcome State Fault Refusal :=
  requireConfig s (.next (s.withResult (.color (getColor s.cfg s.img pattern led q))))

end Sys2Proof.Machine
end

