-- ==== Sys2Proof/Machine/Encoder.lean ====
section
/-! DEFINITION. REORDER, MUXBIT, SERCHAN, ENCLED, ENCODE (42_bitstream_encoder.md). `wire` below is the working
register file `wire[·][c]` of one channel position: strip `k`'s byte is `wire k`. -/

namespace Sys2Proof.Machine

/-- R152, by the wire-order table of R87. -/
def reorderColor (v : Color) : Wire3 :=
  ⟨v.get (wireOrder 0), v.get (wireOrder 1), v.get (wireOrder 2)⟩

/-- R156: the byte `v` that MUXBIT ORs in, one bit per strip. -/
def muxByte (c : Config) (wire : Nat → Byte) (i : Nat) : Byte :=
  (List.range c.numStrips).foldl
    (fun v k => v ||| laneBit (wire k) (bitOf i) (c.laneMap (subOf i) k)) 0

/-- R156. -/
def muxBit (c : Config) (wire : Nat → Byte) (led ch i : Nat) (b : Memory) : Memory :=
  b.or (bufIndex led ch (pairOf i)) (muxByte c wire i)

/-- R158: "most significant bit first". -/
def serChan (c : Config) (wire : Nat → Byte) (led ch : Nat) (b : Memory) : Memory :=
  (List.range 8).foldl (fun b i => muxBit c wire led ch i b) b

/-- R160 steps 1a and 1b: strip `k`'s colour, in wire order. -/
def wires (c : Config) (img : Memory) (pattern led k : Nat) : Wire3 :=
  reorderColor (getColor c img pattern led (c.quadrant k))

/-- R160 step 1c: "g, r, b in that order". -/
def encLed (c : Config) (img : Memory) (pattern led : Nat) (b : Memory) : Memory :=
  (List.range 3).foldl (fun b ch => serChan c (fun k => (wires c img pattern led k).get ch) led ch b) b

/-- R164's loop over the LEDs, ascending. -/
def encodeLeds (c : Config) (img : Memory) (pattern : Nat) (b : Memory) : Memory :=
  (List.range c.ledsPerStrip).foldl (fun b led => encLed c img pattern led b) b

/-- R163, R164: the reference check first, then the loop. -/
def encodePattern (pattern : Nat) (image buffer : Bool) (s : State) : State × EncStatus :=
  if referencesPresent image buffer then
    ({ s with buf := encodeLeds s.cfg s.img pattern s.buf }, .ok)
  else raiseInvalidArgument s

/-- Go on only for an LED of the strip: R156, R158 and R160 give the operand the range `led < LEDS_PER_STRIP`
(log 9). -/
def requireLed (s : State) (led : Nat) (k : Host.Outcome State Fault Refusal) : Host.Outcome State Fault Refusal :=
  if led < s.cfg.ledsPerStrip then k else .fault .ledOutOfRange

/-- Go on only for a channel position 0, 1 or 2 (30_encoding.md R94). -/
def requireChannel (c : BitVec 2) (k : Host.Outcome State Fault Refusal) : Host.Outcome State Fault Refusal :=
  if c = 3 then .refused .channelThree else k

/-- REORDER (R152): it reads its operand and the wire order only. -/
def execReorder (red green blue : Byte) (s : State) : Host.Outcome State Fault Refusal :=
  .next (s.withResult (.wire (reorderColor ⟨red, green, blue⟩)))

/-- MUXBIT (R156). -/
def execMuxbit (led : Nat) (c : BitVec 2) (i : BitVec 3) (wire : StripBytes) (s : State) :
    Host.Outcome State Fault Refusal :=
  requireChannel c <| requireConfig s <| requireLed s led <|
    .next (s.withBuf (muxBit s.cfg wire.get led c.toNat i.toNat s.buf))

/-- SERCHAN (R158). -/
def execSerchan (led : Nat) (c : BitVec 2) (wire : StripBytes) (s : State) : Host.Outcome State Fault Refusal :=
  requireChannel c <| requireConfig s <| requireLed s led <|
    .next (s.withBuf (serChan s.cfg wire.get led c.toNat s.buf))

/-- ENCLED (R160). -/
def execEncled (pattern led : Nat) (s : State) : Host.Outcome State Fault Refusal :=
  requireConfig s <| requireLed s led <|
    .next (s.withBuf (encLed s.cfg s.img pattern led s.buf))

/-- ENCODE (R164). -/
def execEncode (pattern : Nat) (image buffer : Bool) (s : State) : Host.Outcome State Fault Refusal :=
  requireConfig s <|
    .next ((encodePattern pattern image buffer s).1.withResult
      (.encStatus (encodePattern pattern image buffer s).2))

end Sys2Proof.Machine
end

