-- ==== Sys2Proof/Machine/Sequencer.lean ====
section
/-! DEFINITION. ZEROBUF, PERSIST, TRANSMIT, RUN (43_pattern_sequencer.md). -/

namespace Sys2Proof.Machine

/-- R181: `BufWrite(N, 0)` for every `N` of the buffer. -/
def zeroBytes (c : Config) (b : Memory) : Memory :=
  (List.range c.bufLen).foldl (fun b n => b.write n 0) b

/-- R182: the collaborator answers; on ok a copy of `BUF` joins `PERSISTED`. -/
def persistBuf (s : State) : State × Answer :=
  match drawAnswer s with
  | (t, .ok) => ({ t with persisted := t.persisted ++ [bufCopy s] }, .ok)
  | (t, .fail) => (t, .fail)

/-- The zeroing of one iteration of RUN: "skipped if the buffer reference is absent" (R185). -/
def zeroIfPresent (buffer : Bool) (s : State) : State :=
  if buffer then { s with buf := zeroBytes s.cfg s.buf } else s

/-- R185: one iteration for each pattern of the list, stopping at the first failure. -/
def runFrom (image : Bool) (bufAbsentAt : Option Nat) : List Nat → State → State × RunStatus
  | [], s => (s, .success)
  | p :: rest, s =>
    match encodePattern p image (bufAbsentAt != some p) (zeroIfPresent (bufAbsentAt != some p) s) with
    | (t, .invalidArgument) => (t, .failure)
    | (t, .ok) =>
      match persistBuf t with
      | (u, .fail) => (u, .failure)
      | (u, .ok) => runFrom image bufAbsentAt rest u

/-- R185: "for p in 0 .. BITMATRIX_PATTERNS − 1", ascending. -/
def runPatterns (image : Bool) (bufAbsentAt : Option Nat) (s : State) : State × RunStatus :=
  runFrom image bufAbsentAt (List.range s.cfg.bitmatrixPatterns) s

/-- ZEROBUF (R181). -/
def execZerobuf (s : State) : Host.Outcome State Fault Refusal :=
  requireConfig s (.next (s.withBuf (zeroBytes s.cfg s.buf)))

/-- PERSIST (R182). -/
def execPersist (s : State) : Host.Outcome State Fault Refusal :=
  requireConfig s (.next ((persistBuf s).1.withResult (.answer (persistBuf s).2)))

/-- TRANSMIT (R183): "A model gives TRANSMIT no step and makes no claim about the LED lines" (log 10). -/
def execTransmit (_ : State) : Host.Outcome State Fault Refusal := .refused .transmitNotSpecified

/-- RUN (R185). -/
def execRun (image : Bool) (bufAbsentAt : Option Nat) (s : State) : Host.Outcome State Fault Refusal :=
  requireConfig s <|
    .next ((runPatterns image bufAbsentAt s).1.withResult (.runStatus (runPatterns image bufAbsentAt s).2))

end Sys2Proof.Machine
end

