-- ==== Sys2Proof/Machine/Dispatch.lean ====
section
/-! DEFINITION. One arm per operation. -/

namespace Sys2Proof.Machine

def exec (i : Instr) (s : State) : Host.Outcome State Fault Refusal :=
  match i with
  | .unpackR px => Sys2Proof.Machine.execUnpackR px s
  | .unpackG px => Sys2Proof.Machine.execUnpackG px s
  | .unpackB px => Sys2Proof.Machine.execUnpackB px s
  | .rescale3 f => Sys2Proof.Machine.execRescale3 f s
  | .rescale2 f => Sys2Proof.Machine.execRescale2 f s
  | .expand px => Sys2Proof.Machine.execExpand px s
  | .resolveTl pattern led => Sys2Proof.Machine.execResolveTl pattern led s
  | .resolveBl pattern led => Sys2Proof.Machine.execResolveBl pattern led s
  | .resolveTr pattern led => Sys2Proof.Machine.execResolveTr pattern led s
  | .resolveBr pattern led => Sys2Proof.Machine.execResolveBr pattern led s
  | .getcolor pattern led q => Sys2Proof.Machine.execGetcolor pattern led q s
  | .reorder red green blue => Sys2Proof.Machine.execReorder red green blue s
  | .muxbit led c b wire => Sys2Proof.Machine.execMuxbit led c b wire s
  | .serchan led c wire => Sys2Proof.Machine.execSerchan led c wire s
  | .encled pattern led => Sys2Proof.Machine.execEncled pattern led s
  | .encode pattern image buffer => Sys2Proof.Machine.execEncode pattern image buffer s
  | .zerobuf => Sys2Proof.Machine.execZerobuf s
  | .persist => Sys2Proof.Machine.execPersist s
  | .transmit => Sys2Proof.Machine.execTransmit s
  | .run image bufAbsentAt => Sys2Proof.Machine.execRun image bufAbsentAt s

end Sys2Proof.Machine
end

