-- ==== Sys2Proof/Machine/Step.lean ====
section
/-! DEFINITION. One step: the host's next request is carried out from start to end (00_scope.md R15, R19; log 5). The
block has no program counter and fetches nothing (10_state.md R30). -/

namespace Sys2Proof.Machine

/-- With no request pending the block waits for its caller and nothing changes (log 5). -/
def step (s : State) : Host.Outcome State Fault Refusal :=
  match s.pending with
  | [] => .next s
  | .invoke call :: rest =>
    match decode call with
    | .ok i => exec i (s.accept rest)
    | .error e => .refused (.notAnOperation e)
  | .writeImg n v :: rest => hostWriteImg n v (s.accept rest)
  | .writeBuf n v :: rest => hostWriteBuf n v (s.accept rest)

/-- The host's next request is the operation with this table word (log 5). -/
def State.withFetchWord (s : State) (nbits w : Nat) : State :=
  { s with pending := fetchRequest nbits w :: s.pending }

end Sys2Proof.Machine
end

