-- ==== Sys2Proof/Safety.lean ====
section
/-! DEFINITION. The terms claims use: the invariant of the state, the operands an operation runs on, a sequence of
operations, and the closed forms of the encoder. -/

namespace Sys2Proof.Machine

/-- What every reachable state satisfies: both memories in canonical form and inside their spaces (20_memory.md R50,
R51, R54), every persisted entry a whole buffer (10_state.md R37). -/
structure State.Inv (s : State) : Prop where
  imgCanonical : s.img.wf
  bufCanonical : s.buf.wf
  imgInside    : s.img.within s.cfg.imgLen
  bufInside    : s.buf.within s.cfg.bufLen
  wholeCopies  : ∀ b ∈ s.persisted, b.length = s.cfg.bufLen

/-- The operations, one after another, ending at the first that stops. -/
def execAll : List Instr → State → Host.Outcome State Fault Refusal
  | [], s => .next s
  | i :: rest, s =>
    match exec i s with
    | .next t => execAll rest t
    | .fault r => .fault r
    | .refused r => .refused r

/-- `W(k, led, c)` of 42_bitstream_encoder.md R165. -/
def wireByte (c : Config) (img : Memory) (pattern led k ch : Nat) : Byte :=
  (reorderColor (getColor c img pattern led (c.quadrant k))).get ch

/-- R159's byte `j`: two bits of every strip's channel byte, ORed over the strips. -/
def closedPair (c : Config) (wire : Nat → Byte) (j : Nat) : Byte :=
  (List.range c.numStrips).foldl
    (fun v k => v ||| (laneBit (wire k) (7 - 2 * j) (c.laneMap 0 k) ||| laneBit (wire k) (6 - 2 * j) (c.laneMap 1 k))) 0

/-- R165's byte at index `a` of `BUF`, whose LED, channel position and pair are `a / 12`, `a mod 12 / 4` and
`a mod 4` (R54). -/
def closedByte (c : Config) (img : Memory) (pattern a : Nat) : Byte :=
  closedPair c (fun k => wireByte c img pattern (a / 12) k (a % 12 / 4)) (a % 4)

/-- The whole buffer of R165 for a pattern. -/
def closedBuffer (c : Config) (img : Memory) (pattern : Nat) : List Byte :=
  (List.range c.bufLen).map (closedByte c img pattern)

/-- `RESOLVE q`: the one of the four that `q` names (41_quadrant_mapper.md R130). -/
def resolveOf (q : Quadrant) (pattern led : Nat) : Instr :=
  match q with
  | .tl => .resolveTl pattern led
  | .bl => .resolveBl pattern led
  | .tr => .resolveTr pattern led
  | .br => .resolveBr pattern led

/-- 43_pattern_sequencer.md R185 read as operations invoked one after another: `RunSteps image absent ps s t st` says
that the patterns `ps`, from `s`, end in `t` with status `st`. ZEROBUF is "skipped if the buffer reference is absent". -/
inductive RunSteps (image : Bool) (absent : Option Nat) : List Nat → State → State → RunStatus → Prop
  /-- No pattern is left. -/
  | done (s : State) : RunSteps image absent [] s s .success
  /-- ENCODE is given an absent buffer and fails; later patterns are never attempted. -/
  | bufferAbsent (p : Nat) (ps : List Nat) (s u : State) : absent = some p →
      exec (.encode p image false) s = .next u → u.result = .encStatus .invalidArgument →
      RunSteps image absent (p :: ps) s u .failure
  /-- ENCODE fails on an absent image. -/
  | encodeFails (p : Nat) (ps : List Nat) (s t u : State) : absent ≠ some p → exec .zerobuf s = .next t →
      exec (.encode p image true) t = .next u → u.result = .encStatus .invalidArgument →
      RunSteps image absent (p :: ps) s u .failure
  /-- ENCODE succeeds and the collaborator fails. -/
  | persistFails (p : Nat) (ps : List Nat) (s t u v : State) : absent ≠ some p → exec .zerobuf s = .next t →
      exec (.encode p image true) t = .next u → u.result = .encStatus .ok →
      exec .persist u = .next v → v.result = .answer .fail →
      RunSteps image absent (p :: ps) s v .failure
  /-- Both succeed and the next pattern is attempted. -/
  | goesOn (p : Nat) (ps : List Nat) (s t u v w : State) (st : RunStatus) : absent ≠ some p →
      exec .zerobuf s = .next t →
      exec (.encode p image true) t = .next u → u.result = .encStatus .ok →
      exec .persist u = .next v → v.result = .answer .ok → RunSteps image absent ps v w st →
      RunSteps image absent (p :: ps) s w st

end Sys2Proof.Machine
end

