-- ==== Sys2Proof/Certificates/Slice0/Obligations.lean ====
section
/-! DEFINITION. The statements for the provers. Each is for every state, and so for every configuration and every
contents of `IMG` and `BUF`, unless it says otherwise. An equation `exec i s = .next { s with … }` also says the frame:
every field not named is unchanged. A clause `decode … = .ok i` gives the operation's table word. -/

open Sys2Proof Sys2Proof.Machine

/-! ## pixel_unpacker and color_depth_rescaler -/

/-- R111: `r3 = (px & 0b11100000) >> 5`, which is `px[7:5]`. -/
def Obligations.UnpackRedReadsBits7To5 : Prop :=
  ∀ (px : Byte) (s : State),
    exec (.unpackR px) s = .next { s with result := .field3 (px.extractLsb' 5 3) } ∧
    (px.extractLsb' 5 3).toNat = (px &&& 0b11100000 : Byte).toNat / 32 ∧
    decode (Call.ofWord (0#5 ++ px ++ 0#19)) = .ok (.unpackR px)

/-- R112: `g3 = (px & 0b00011100) >> 2`, which is `px[4:2]`. -/
def Obligations.UnpackGreenReadsBits4To2 : Prop :=
  ∀ (px : Byte) (s : State),
    exec (.unpackG px) s = .next { s with result := .field3 (px.extractLsb' 2 3) } ∧
    (px.extractLsb' 2 3).toNat = (px &&& 0b00011100 : Byte).toNat / 4 ∧
    decode (Call.ofWord (1#5 ++ px ++ 0#19)) = .ok (.unpackG px)

/-- R113: `b2 = px & 0b00000011`, which is `px[1:0]`. -/
def Obligations.UnpackBlueReadsBits1To0 : Prop :=
  ∀ (px : Byte) (s : State),
    exec (.unpackB px) s = .next { s with result := .field2 (px.extractLsb' 0 2) } ∧
    (px.extractLsb' 0 2).toNat = (px &&& 0b00000011 : Byte).toNat ∧
    decode (Call.ofWord (2#5 ++ px ++ 0#19)) = .ok (.unpackB px)

/-- R114: `v = f × 32`, `v[7:5] = f`, `v[4:0] = 0`, and the product never exceeds 8 bits. -/
def Obligations.Rescale3MultipliesBy32 : Prop :=
  ∀ (f : BitVec 3) (s : State), ∃ v : Byte,
    exec (.rescale3 f) s = .next { s with result := .channel v } ∧
    v.toNat = f.toNat * 32 ∧ v.extractLsb' 5 3 = f ∧ v.extractLsb' 0 5 = 0 ∧
    decode (Call.ofWord (3#5 ++ f ++ 0#24)) = .ok (.rescale3 f)

/-- R115: `v = f × 64`, `v[7:6] = f`, `v[5:0] = 0`. -/
def Obligations.Rescale2MultipliesBy64 : Prop :=
  ∀ (f : BitVec 2) (s : State), ∃ v : Byte,
    exec (.rescale2 f) s = .next { s with result := .channel v } ∧
    v.toNat = f.toNat * 64 ∧ v.extractLsb' 6 2 = f ∧ v.extractLsb' 0 6 = 0 ∧
    decode (Call.ofWord (4#5 ++ f ++ 0#25)) = .ok (.rescale2 f)

/-- R116: EXPAND hands back the colour whose channels are what RESCALE3, RESCALE3 and RESCALE2 hand back for what
UNPACK_R, UNPACK_G and UNPACK_B hand back. -/
def Obligations.ExpandIsUnpackThenRescale : Prop :=
  ∀ (px : Byte) (s : State), ∃ (r3 g3 : BitVec 3) (b2 : BitVec 2) (v : Color),
    exec (.unpackR px) s = .next { s with result := .field3 r3 } ∧
    exec (.unpackG px) s = .next { s with result := .field3 g3 } ∧
    exec (.unpackB px) s = .next { s with result := .field2 b2 } ∧
    exec (.rescale3 r3) s = .next { s with result := .channel v.red } ∧
    exec (.rescale3 g3) s = .next { s with result := .channel v.green } ∧
    exec (.rescale2 b2) s = .next { s with result := .channel v.blue } ∧
    exec (.expand px) s = .next { s with result := .color v } ∧
    decode (Call.ofWord (5#5 ++ px ++ 0#19)) = .ok (.expand px)

/-- R117 (the spec's own derivation): the closed form of EXPAND, for every pixel. -/
def Obligations.ExpandClosedForm : Prop :=
  ∀ (px : Byte) (s : State),
    exec (.expand px) s =
      .next { s with result := .color ⟨px &&& 0xE0, (px &&& 0x1C) <<< 3, (px &&& 0x03) <<< 6⟩ }

/-- R120 (injectivity is the spec's own derivation): EXPAND's channels are the extracted fields times the scale, in
the stated sets; each depends on its own field only; and EXPAND is injective. -/
def Obligations.ExpandScalesExactlyAndIsInjective : Prop :=
  ∃ f : Byte → Color,
    (∀ (px : Byte) (s : State), exec (.expand px) s = .next { s with result := .color (f px) }) ∧
    (∀ px : Byte,
      (f px).red.toNat ∈ [0, 32, 64, 96, 128, 160, 192, 224] ∧
      (f px).green.toNat ∈ [0, 32, 64, 96, 128, 160, 192, 224] ∧
      (f px).blue.toNat ∈ [0, 64, 128, 192] ∧
      (f px).red.toNat = (px.extractLsb' 5 3).toNat * 32 ∧
      (f px).green.toNat = (px.extractLsb' 2 3).toNat * 32 ∧
      (f px).blue.toNat = (px.extractLsb' 0 2).toNat * 64) ∧
    (∀ px py : Byte,
      (px.extractLsb' 5 3 = py.extractLsb' 5 3 → (f px).red = (f py).red) ∧
      (px.extractLsb' 2 3 = py.extractLsb' 2 3 → (f px).green = (f py).green) ∧
      (px.extractLsb' 0 2 = py.extractLsb' 0 2 → (f px).blue = (f py).blue)) ∧
    Function.Injective f

/-- R110 and R121: each of the six operations runs in every state, under every configuration, hands back a result that
depends on its operand alone, and changes nothing else. -/
def Obligations.ExpanderFamilyIsPure : Prop :=
  (∀ px : Byte, ∃ r, ∀ s : State, exec (.unpackR px) s = .next { s with result := r }) ∧
  (∀ px : Byte, ∃ r, ∀ s : State, exec (.unpackG px) s = .next { s with result := r }) ∧
  (∀ px : Byte, ∃ r, ∀ s : State, exec (.unpackB px) s = .next { s with result := r }) ∧
  (∀ f : BitVec 3, ∃ r, ∀ s : State, exec (.rescale3 f) s = .next { s with result := r }) ∧
  (∀ f : BitVec 2, ∃ r, ∀ s : State, exec (.rescale2 f) s = .next { s with result := r }) ∧
  (∀ px : Byte, ∃ r, ∀ s : State, exec (.expand px) s = .next { s with result := r })

/-! ## quadrant_coordinate_mapper -/

/-- R131: each RESOLVE hands back absent exactly when one of its indices is out of range. -/
def Obligations.ResolveRangeCheck : Prop :=
  ∀ (s : State) (q : Quadrant) (p l : Nat), s.cfg.WellFormed →
    (s.cfg.ledsPerStrip ≤ l ∨ s.cfg.bitmatrixPatterns ≤ p →
      exec (resolveOf q p l) s = .next { s with result := .coord none }) ∧
    (l < s.cfg.ledsPerStrip ∧ p < s.cfg.bitmatrixPatterns →
      ∃ rc, exec (resolveOf q p l) s = .next { s with result := .coord (some rc) })

/-- R133: a top-left row lies `led + 1` above the centre line (so the subtraction does not go below zero), the column
is the pattern; out of range is absent. -/
def Obligations.ResolveTopLeft : Prop :=
  ∀ (s : State) (p l : Nat), s.cfg.WellFormed →
    (l < s.cfg.ledsPerStrip ∧ p < s.cfg.bitmatrixPatterns →
      ∃ row, row + l + 1 = s.cfg.imgRows / 2 ∧
        exec (.resolveTl p l) s = .next { s with result := .coord (some ⟨row, p⟩) }) ∧
    (s.cfg.ledsPerStrip ≤ l ∨ s.cfg.bitmatrixPatterns ≤ p →
      exec (.resolveTl p l) s = .next { s with result := .coord none }) ∧
    decode { Call.ofWord (6#5 ++ 0#2 ++ 0#25) with pattern := p, led := l } = .ok (.resolveTl p l)

/-- R134: a bottom-left row lies `led` below the centre line, the column is the pattern; out of range is absent. -/
def Obligations.ResolveBottomLeft : Prop :=
  ∀ (s : State) (p l : Nat), s.cfg.WellFormed →
    (l < s.cfg.ledsPerStrip ∧ p < s.cfg.bitmatrixPatterns →
      exec (.resolveBl p l) s = .next { s with result := .coord (some ⟨s.cfg.imgRows / 2 + l, p⟩) }) ∧
    (s.cfg.ledsPerStrip ≤ l ∨ s.cfg.bitmatrixPatterns ≤ p →
      exec (.resolveBl p l) s = .next { s with result := .coord none }) ∧
    decode { Call.ofWord (6#5 ++ 1#2 ++ 0#25) with pattern := p, led := l } = .ok (.resolveBl p l)

/-- R135: the row of R133, the column `(IMG_COLS / 2 + pattern) mod BITMATRIX_PATTERNS`; out of range is absent. -/
def Obligations.ResolveTopRight : Prop :=
  ∀ (s : State) (p l : Nat), s.cfg.WellFormed →
    (l < s.cfg.ledsPerStrip ∧ p < s.cfg.bitmatrixPatterns →
      ∃ row, row + l + 1 = s.cfg.imgRows / 2 ∧
        exec (.resolveTr p l) s =
          .next { s with result := .coord (some ⟨row, (s.cfg.imgCols / 2 + p) % s.cfg.bitmatrixPatterns⟩) }) ∧
    (s.cfg.ledsPerStrip ≤ l ∨ s.cfg.bitmatrixPatterns ≤ p →
      exec (.resolveTr p l) s = .next { s with result := .coord none }) ∧
    decode { Call.ofWord (6#5 ++ 2#2 ++ 0#25) with pattern := p, led := l } = .ok (.resolveTr p l)

/-- R136: the row of R134, the column of R135; out of range is absent. -/
def Obligations.ResolveBottomRight : Prop :=
  ∀ (s : State) (p l : Nat), s.cfg.WellFormed →
    (l < s.cfg.ledsPerStrip ∧ p < s.cfg.bitmatrixPatterns →
      exec (.resolveBr p l) s =
        .next { s with result := .coord (some
          ⟨s.cfg.imgRows / 2 + l, (s.cfg.imgCols / 2 + p) % s.cfg.bitmatrixPatterns⟩) }) ∧
    (s.cfg.ledsPerStrip ≤ l ∨ s.cfg.bitmatrixPatterns ≤ p →
      exec (.resolveBr p l) s = .next { s with result := .coord none }) ∧
    decode { Call.ofWord (6#5 ++ 3#2 ++ 0#25) with pattern := p, led := l } = .ok (.resolveBr p l)

/-- R140 (the spec's own derivation): under a well-formed configuration every present result is inside the image. -/
def Obligations.ResolvedCoordinatesInImage : Prop :=
  ∀ (s : State) (q : Quadrant) (p l : Nat), s.cfg.WellFormed →
    ∃ rc : Option Coord, exec (resolveOf q p l) s = .next { s with result := .coord rc } ∧
      ∀ x, rc = some x → x.row < s.cfg.imgRows ∧ x.col < s.cfg.imgCols

/-- R138 (the spec's own derivation): for a fixed quadrant, two different in-range pairs resolve to two different
coordinates. -/
def Obligations.ResolveInjectiveInQuadrant : Prop :=
  ∀ (s : State) (q : Quadrant) (p l p' l' : Nat), s.cfg.WellFormed →
    l < s.cfg.ledsPerStrip → p < s.cfg.bitmatrixPatterns →
    l' < s.cfg.ledsPerStrip → p' < s.cfg.bitmatrixPatterns →
    ∃ x y : Coord,
      exec (resolveOf q p l) s = .next { s with result := .coord (some x) } ∧
      exec (resolveOf q p' l') s = .next { s with result := .coord (some y) } ∧
      (x = y → p = p' ∧ l = l')

/-- R139 (the spec's own derivation): the rows of top and of bottom quadrants lie in two disjoint intervals; a left
and a right quadrant resolve to the same pixel for the same pattern when `BITMATRIX_PATTERNS` divides `IMG_COLS / 2`,
and can do so for different patterns. -/
def Obligations.TopAndBottomRowsNeverMeet : Prop :=
  (∀ (s : State) (p l p' l' : Nat), s.cfg.WellFormed →
    l < s.cfg.ledsPerStrip → p < s.cfg.bitmatrixPatterns →
    l' < s.cfg.ledsPerStrip → p' < s.cfg.bitmatrixPatterns →
    ∀ top ∈ [Quadrant.tl, .tr], ∀ bottom ∈ [Quadrant.bl, .br], ∃ x y : Coord,
      exec (resolveOf top p l) s = .next { s with result := .coord (some x) } ∧
      exec (resolveOf bottom p' l') s = .next { s with result := .coord (some y) } ∧
      s.cfg.imgRows / 2 - s.cfg.ledsPerStrip ≤ x.row ∧ x.row ≤ s.cfg.imgRows / 2 - 1 ∧
      s.cfg.imgRows / 2 ≤ y.row ∧ y.row ≤ s.cfg.imgRows / 2 + s.cfg.ledsPerStrip - 1 ∧
      x.row < y.row) ∧
  (∀ (s : State) (p l : Nat), s.cfg.WellFormed → s.cfg.bitmatrixPatterns ∣ s.cfg.imgCols / 2 →
    ∃ top bottom : Option Coord,
      exec (.resolveTl p l) s = .next { s with result := .coord top } ∧
      exec (.resolveTr p l) s = .next { s with result := .coord top } ∧
      exec (.resolveBl p l) s = .next { s with result := .coord bottom } ∧
      exec (.resolveBr p l) s = .next { s with result := .coord bottom }) ∧
  (∃ (s : State) (p p' l : Nat) (x : Coord), s.cfg.WellFormed ∧ p ≠ p' ∧
    exec (.resolveTl p l) s = .next { s with result := .coord (some x) } ∧
    exec (.resolveTr p' l) s = .next { s with result := .coord (some x) })

/-- R141 (the spec's own derivation): the columns of the right quadrants. (a) With `BITMATRIX_PATTERNS = IMG_COLS`
they start at the middle column and wrap once, and in each of the two quadrants each column is used by exactly one
pattern. (c) With 8 columns and 6 patterns they are 4, 5, 0, 1, 2, 3. (Case (b) is in TopAndBottomRowsNeverMeet.) -/
def Obligations.RightColumnsWrap : Prop :=
  (∀ (s : State) (p l : Nat), s.cfg.WellFormed → s.cfg.bitmatrixPatterns = s.cfg.imgCols →
    l < s.cfg.ledsPerStrip → p < s.cfg.imgCols →
    ∃ top bottom : Coord,
      exec (.resolveTr p l) s = .next { s with result := .coord (some top) } ∧
      exec (.resolveBr p l) s = .next { s with result := .coord (some bottom) } ∧
      top.col = (if p < s.cfg.imgCols / 2 then s.cfg.imgCols / 2 + p else p - s.cfg.imgCols / 2) ∧
      bottom.col = top.col) ∧
  (∀ (s : State) (l col : Nat), s.cfg.WellFormed → s.cfg.bitmatrixPatterns = s.cfg.imgCols →
    l < s.cfg.ledsPerStrip → col < s.cfg.imgCols →
    ∀ right ∈ [Quadrant.tr, .br], ∃! p, p < s.cfg.imgCols ∧
      ∃ row, exec (resolveOf right p l) s = .next { s with result := .coord (some ⟨row, col⟩) }) ∧
  (∀ (s : State) (p l : Nat), s.cfg.WellFormed → s.cfg.imgCols = 8 → s.cfg.bitmatrixPatterns = 6 →
    l < s.cfg.ledsPerStrip → p < 6 →
    ∃ top bottom : Coord,
      exec (.resolveTr p l) s = .next { s with result := .coord (some top) } ∧
      exec (.resolveBr p l) s = .next { s with result := .coord (some bottom) } ∧
      top.col = [4, 5, 0, 1, 2, 3].getD p 0 ∧ bottom.col = [4, 5, 0, 1, 2, 3].getD p 0)

/-- R142: GETCOLOR hands back black where RESOLVE hands back absent, and elsewhere what EXPAND hands back for
`ImgRead(row, col)`; nothing else changes. -/
def Obligations.GetcolorIsResolveThenExpand : Prop :=
  ∀ (s : State) (p l : Nat) (q : Quadrant), s.cfg.WellFormed →
    ∃ (rc : Option Coord) (v : Color),
      exec (resolveOf q p l) s = .next { s with result := .coord rc } ∧
      exec (.getcolor p l q) s = .next { s with result := .color v } ∧
      (rc = none → v = ⟨0, 0, 0⟩) ∧
      (∀ x, rc = some x →
        exec (.expand (imgRead s.cfg s.img x.row x.col)) s = .next { s with result := .color v }) ∧
      decode { Call.ofWord (7#5 ++ quadrantBits q ++ 0#25) with pattern := p, led := l } = .ok (.getcolor p l q)

/-- R51, R52 (the formula is the spec's general knowledge, decision D15; log 14): the image is row-major. Every byte
of the image is the pixel of exactly one coordinate, and GETCOLOR expands the byte `row × IMG_COLS + col`. -/
def Obligations.ImageIsRowMajor : Prop :=
  (∀ c : Config,
    (∀ row col, row < c.imgRows → col < c.imgCols → row * c.imgCols + col < c.imgRows * c.imgCols) ∧
    (∀ n, n < c.imgRows * c.imgCols →
      ∃! x : Coord, x.row < c.imgRows ∧ x.col < c.imgCols ∧ x.row * c.imgCols + x.col = n)) ∧
  (∀ (s : State) (p l : Nat) (q : Quadrant), s.cfg.WellFormed → l < s.cfg.ledsPerStrip → p < s.cfg.bitmatrixPatterns →
    ∃ (x : Coord) (v : Color), exec (resolveOf q p l) s = .next { s with result := .coord (some x) } ∧
      exec (.expand (s.img.read (x.row * s.cfg.imgCols + x.col))) s = .next { s with result := .color v } ∧
      exec (.getcolor p l q) s = .next { s with result := .color v })

/-- R143 (the spec's own derivation): for an LED index or a pattern index out of range GETCOLOR yields the zero
colour. -/
def Obligations.GetcolorBlackOutOfRange : Prop :=
  ∀ (s : State) (p l : Nat) (q : Quadrant), s.cfg.WellFormed →
    s.cfg.ledsPerStrip ≤ l ∨ s.cfg.bitmatrixPatterns ≤ p →
    exec (.getcolor p l q) s = .next { s with result := .color ⟨0, 0, 0⟩ }

/-! ## one_wire_bitstream_encoder -/

/-- R152: green, red, blue; the bytes are moved unchanged. -/
def Obligations.ReorderPutsGreenFirst : Prop :=
  ∀ (r g b : Byte) (s : State), exec (.reorder r g b) s = .next { s with result := .wire ⟨g, r, b⟩ } ∧
    decode (Call.ofWord (8#5 ++ r ++ g ++ b ++ 0#3)) = .ok (.reorder r g b)

/-- R54 (decision D7 of the spec), R58: every (LED, channel position, pair) has an index in the buffer, and every
index in the buffer belongs to exactly one. -/
def Obligations.BufferIndexBijection : Prop :=
  ∀ c : Config,
    (∀ led ch j, led < c.ledsPerStrip → ch < 3 → j < 4 → bufIndex led ch j < c.ledsPerStrip * 12) ∧
    (∀ a, a < c.ledsPerStrip * 12 →
      ∃! t : Nat × Nat × Nat, t.1 < c.ledsPerStrip ∧ t.2.1 < 3 ∧ t.2.2 < 4 ∧ bufIndex t.1 t.2.1 t.2.2 = a)

/-- R156: MUXBIT ORs into the one byte `12 × led + 4 × c + i div 2` the byte whose bit `p` is 1 exactly when some
strip has its lane at `p` and a 1 at bit `7 − i` of its channel byte. (The index and the sub-bit are R54's and R154's,
the spec's decisions D7 and D6.) -/
def Obligations.MuxbitOrsOneBitPerStrip : Prop :=
  ∀ (s : State) (led : Nat) (c : BitVec 2) (i : BitVec 3) (w : StripBytes),
    s.cfg.WellFormed → led < s.cfg.ledsPerStrip → c ≠ 3 →
    ∃ (b : Memory) (v : Byte),
      exec (.muxbit led c i w) s = .next { s with buf := b, result := .nothing } ∧
      (∀ p < 8, v.getLsbD p = true ↔
        ∃ k < s.cfg.numStrips, s.cfg.laneMap (i.toNat % 2) k = p ∧ (w.get k).getLsbD (7 - i.toNat) = true) ∧
      (∀ a, b.read a =
        if a = 12 * led + 4 * c.toNat + i.toNat / 2 then s.buf.read a ||| v else s.buf.read a) ∧
      decode { Call.ofWord (9#5 ++ c ++ i ++ 0#22) with led := led, wire := w } = .ok (.muxbit led c i w)

/-- R158: SERCHAN is MUXBIT for `i = 0 .. 7`, in every state and on every operand, stops included; it changes no byte
but the four of its LED and channel position. -/
def Obligations.SerchanIsEightMuxbits : Prop :=
  (∀ (s : State) (led : Nat) (c : BitVec 2) (w : StripBytes),
    exec (.serchan led c w) s =
      execAll ((List.range 8).map fun i => Instr.muxbit led c (BitVec.ofNat 3 i) w) s) ∧
  (∀ (s : State) (led : Nat) (c : BitVec 2) (w : StripBytes),
    s.cfg.WellFormed → led < s.cfg.ledsPerStrip → c ≠ 3 →
    ∃ b : Memory, exec (.serchan led c w) s = .next { s with buf := b, result := .nothing } ∧
      ∀ a, (∀ j < 4, a ≠ bufIndex led c.toNat j) → b.read a = s.buf.read a) ∧
  (∀ (led : Nat) (c : BitVec 2) (w : StripBytes), c ≠ 3 →
    decode { Call.ofWord (10#5 ++ c ++ 0#25) with led := led, wire := w } = .ok (.serchan led c w))

/-- R159 (the spec's own derivation): SERCHAN ORs the closed form into its four bytes and leaves every other byte. -/
def Obligations.SerchanClosedForm : Prop :=
  ∀ (s : State) (led : Nat) (c : BitVec 2) (w : StripBytes),
    s.cfg.WellFormed → led < s.cfg.ledsPerStrip → c ≠ 3 →
    ∃ b : Memory,
      exec (.serchan led c w) s = .next { s with buf := b, result := .nothing } ∧
      (∀ j < 4, b.read (12 * led + 4 * c.toNat + j) =
        s.buf.read (12 * led + 4 * c.toNat + j) ||| closedPair s.cfg w.get j) ∧
      (∀ a, a < 12 * led + 4 * c.toNat ∨ 12 * led + 4 * c.toNat + 4 ≤ a → b.read a = s.buf.read a)

/-- R160: ENCLED is SERCHAN for `c = 0, 1, 2` with the wire bytes of the strips' colours, in every state and on every
operand, stops included; the wire bytes of strip `k` are what REORDER hands back for what GETCOLOR hands back for its
quadrant; and no byte but the twelve of the LED changes. -/
def Obligations.EncledIsThreeSerchans : Prop :=
  (∀ (s : State) (p led : Nat),
    exec (.encled p led) s =
      execAll ((List.range 3).map fun c =>
        Instr.serchan led (BitVec.ofNat 2 c) (StripBytes.ofFn fun k => wireByte s.cfg s.img p led k c)) s) ∧
  (∀ (s : State) (p led k : Nat) (q : Quadrant), s.cfg.WellFormed → s.cfg.stripAssignment[k]? = some q →
    ∃ (v : Color) (w : Wire3),
      exec (.getcolor p led q) s = .next { s with result := .color v } ∧
      exec (.reorder v.red v.green v.blue) s = .next { s with result := .wire w } ∧
      wireByte s.cfg s.img p led k 0 = w.w0 ∧ wireByte s.cfg s.img p led k 1 = w.w1 ∧
      wireByte s.cfg s.img p led k 2 = w.w2) ∧
  (∀ (s : State) (p led : Nat), s.cfg.WellFormed → led < s.cfg.ledsPerStrip →
    ∃ b : Memory, exec (.encled p led) s = .next { s with buf := b, result := .nothing } ∧
      ∀ a, (∀ c < 3, ∀ j < 4, a ≠ bufIndex led c j) → b.read a = s.buf.read a) ∧
  (∀ p led : Nat,
    decode { Call.ofWord (11#5 ++ 0#27) with pattern := p, led := led } = .ok (.encled p led))

/-- R159, R160: ENCLED ORs the closed form of its three channel positions into the LED's twelve bytes and leaves every
other byte. -/
def Obligations.EncledOrsTwelveBytes : Prop :=
  ∀ (s : State) (p led : Nat), s.cfg.WellFormed → led < s.cfg.ledsPerStrip →
    ∃ b : Memory,
      exec (.encled p led) s = .next { s with buf := b, result := .nothing } ∧
      (∀ ch < 3, ∀ j < 4, b.read (12 * led + 4 * ch + j) =
        s.buf.read (12 * led + 4 * ch + j) |||
          closedPair s.cfg (fun k => wireByte s.cfg s.img p led k ch) j) ∧
      (∀ a, a < 12 * led ∨ 12 * led + 12 ≤ a → b.read a = s.buf.read a)

/-- R164: without one of the references ENCODE stops with INVALID_ARGUMENT; with both, it is ENCLED for every LED,
ascending, and then the status OK, and no byte outside the buffer's length is touched. -/
def Obligations.EncodeIsEncledPerLed : Prop :=
  ∀ (s : State) (p : Nat), s.cfg.WellFormed →
    (∀ image buffer : Bool, image = false ∨ buffer = false →
      exec (.encode p image buffer) s = .next { s with result := .encStatus .invalidArgument }) ∧
    (∃ t, execAll ((List.range s.cfg.ledsPerStrip).map fun led => Instr.encled p led) s = .next t ∧
      exec (.encode p true true) s = .next { t with result := .encStatus .ok } ∧
      ∀ a, s.cfg.ledsPerStrip * 12 ≤ a → t.buf.read a = s.buf.read a) ∧
    (∀ m b : Bool, decode { Call.ofWord (12#5 ++ BitVec.ofBool m ++ BitVec.ofBool b ++ 0#25) with pattern := p } =
      .ok (.encode p m b))

/-- R201: ENCODE with an absent reference changes nothing and hands back INVALID_ARGUMENT, and no other operation ever
hands that back. -/
def Obligations.InvalidArgumentHasNoSideEffect : Prop :=
  (∀ (s : State) (p : Nat) (image buffer : Bool), s.cfg.WellFormed → image = false ∨ buffer = false →
    exec (.encode p image buffer) s = .next { s with result := .encStatus .invalidArgument }) ∧
  (∀ (i : Instr) (s t : State), exec i s = .next t → t.result = .encStatus .invalidArgument →
    ∃ p image buffer, i = .encode p image buffer ∧ (image = false ∨ buffer = false))

/-- R165 (the spec's own derivation): ENCODE on a zeroed buffer gives the closed form at every index, and ENCODE after
ZEROBUF does from any state. -/
def Obligations.EncodeClosedFormOnZeroedBuffer : Prop :=
  (∀ (s : State) (p : Nat), s.cfg.WellFormed → (∀ a < s.cfg.ledsPerStrip * 12, s.buf.read a = 0) →
    ∃ b : Memory, exec (.encode p true true) s = .next { s with buf := b, result := .encStatus .ok } ∧
      (∀ led ch j, led < s.cfg.ledsPerStrip → ch < 3 → j < 4 →
        b.read (12 * led + 4 * ch + j) = closedPair s.cfg (fun k => wireByte s.cfg s.img p led k ch) j) ∧
      (∀ a, s.cfg.ledsPerStrip * 12 ≤ a → b.read a = s.buf.read a)) ∧
  (∀ (s : State) (p : Nat), s.cfg.WellFormed →
    ∃ t, execAll [.zerobuf, .encode p true true] s = .next t ∧ t.result = .encStatus .ok ∧
      t.cfg = s.cfg ∧ t.img = s.img ∧ t.persisted = s.persisted ∧
      (∀ led ch j, led < s.cfg.ledsPerStrip → ch < 3 → j < 4 →
        t.buf.read (12 * led + 4 * ch + j) =
          closedPair s.cfg (fun k => wireByte s.cfg s.img p led k ch) j) ∧
      (∀ a, s.cfg.ledsPerStrip * 12 ≤ a → t.buf.read a = s.buf.read a))

/-- R166 (the spec's own derivation), R36: ENCODE on a buffer that was not zeroed ORs the closed form into what was
there; in particular two ENCODEs with no zeroing between, on a zeroed buffer, leave the OR of both results. -/
def Obligations.EncodeKeepsStaleBits : Prop :=
  (∀ (s : State) (p : Nat), s.cfg.WellFormed →
    ∃ b : Memory, exec (.encode p true true) s = .next { s with buf := b, result := .encStatus .ok } ∧
      ∀ a, b.read a =
        if a < s.cfg.ledsPerStrip * 12 then s.buf.read a ||| closedByte s.cfg s.img p a else s.buf.read a) ∧
  (∀ (s : State) (p p' : Nat), s.cfg.WellFormed → (∀ a < s.cfg.ledsPerStrip * 12, s.buf.read a = 0) →
    ∃ t, execAll [.encode p true true, .encode p' true true] s = .next t ∧
      ∀ a < s.cfg.ledsPerStrip * 12,
        t.buf.read a = closedByte s.cfg s.img p a ||| closedByte s.cfg s.img p' a)

/-- R167: ENCODE depends on nothing but the configuration, the image, its operands and the prior buffer. -/
def Obligations.EncodeIsDeterministic : Prop :=
  ∀ (s t : State) (p : Nat) (image buffer : Bool), s.cfg.WellFormed →
    s.cfg = t.cfg → s.img = t.img → s.buf = t.buf →
    ∃ (b : Memory) (r : Result),
      exec (.encode p image buffer) s = .next { s with buf := b, result := r } ∧
      exec (.encode p image buffer) t = .next { t with buf := b, result := r }

/-- R169 (the spec's own derivation): bit positions that `LANE_MAP` assigns to no strip are never set by ENCODE; under
the default map on a zeroed buffer one strip leaves 0x00, 0x01, 0x10 or 0x11 in every byte, and two strips touch bits
5, 4, 1 and 0 only. -/
def Obligations.UnusedLanesNeverSet : Prop :=
  (∀ (s : State) (p a pos : Nat), s.cfg.WellFormed →
    (∀ k < s.cfg.numStrips, s.cfg.laneMap 0 k ≠ pos ∧ s.cfg.laneMap 1 k ≠ pos) →
    ∃ b : Memory, exec (.encode p true true) s = .next { s with buf := b, result := .encStatus .ok } ∧
      (b.read a).getLsbD pos = (s.buf.read a).getLsbD pos) ∧
  (∀ (s : State) (p a : Nat), s.cfg.WellFormed → s.cfg.numStrips = 1 →
    s.cfg.laneFirst = upperLanes 1 → s.cfg.laneSecond = lowerLanes 1 → a < s.cfg.ledsPerStrip * 12 →
    s.buf.read a = 0 →
    ∃ b : Memory, exec (.encode p true true) s = .next { s with buf := b, result := .encStatus .ok } ∧
      b.read a ∈ [(0x00 : Byte), 0x01, 0x10, 0x11]) ∧
  (∀ (s : State) (p a : Nat), s.cfg.WellFormed → s.cfg.numStrips = 2 →
    s.cfg.laneFirst = upperLanes 2 → s.cfg.laneSecond = lowerLanes 2 → a < s.cfg.ledsPerStrip * 12 →
    s.buf.read a = 0 →
    ∃ b : Memory, exec (.encode p true true) s = .next { s with buf := b, result := .encStatus .ok } ∧
      b.read a &&& 0b11001100 = 0)

/-- R170 (the spec's own derivation): ENCODE does not check the pattern index; out of range it leaves every byte as it
was and hands back OK. -/
def Obligations.EncodePatternOutOfRange : Prop :=
  ∀ (s : State) (p : Nat), s.cfg.WellFormed → s.cfg.bitmatrixPatterns ≤ p →
    ∃ b : Memory, exec (.encode p true true) s = .next { s with buf := b, result := .encStatus .ok } ∧
      (∀ a, b.read a = s.buf.read a) ∧ (s.buf.wf → b = s.buf)

/-- R171 (the spec's own derivation): with no LEDs ENCODE does nothing but the reference check; with no strips it
leaves every byte as it was, whatever the image holds. -/
def Obligations.EncodeDegenerateConfigurations : Prop :=
  (∀ (s : State) (p : Nat) (image buffer : Bool), s.cfg.WellFormed → s.cfg.ledsPerStrip = 0 →
    exec (.encode p image buffer) s =
      .next { s with result := .encStatus (if image && buffer then .ok else .invalidArgument) }) ∧
  (∀ (s : State) (p : Nat), s.cfg.WellFormed → s.cfg.numStrips = 0 →
    ∃ b : Memory,
      (∀ img : Memory, exec (.encode p true true) { s with img := img } =
        .next { s with img := img, buf := b, result := .encStatus .ok }) ∧
      (∀ a, b.read a = s.buf.read a))

/-- R172 (the spec's own derivation): on a zeroed buffer lane `k` of the buffer holds strip `k`'s bits and depends on
no other strip: sub-bit `sub` of pair `j` of channel position `ch` of LED `led` is bit `7 − (2j + sub)` of strip `k`'s
wire byte. -/
def Obligations.LanesNeverInteract : Prop :=
  ∀ (s : State) (p : Nat), s.cfg.WellFormed → (∀ a < s.cfg.ledsPerStrip * 12, s.buf.read a = 0) →
    ∃ b : Memory, exec (.encode p true true) s = .next { s with buf := b, result := .encStatus .ok } ∧
      ∀ led ch j sub k, led < s.cfg.ledsPerStrip → ch < 3 → j < 4 → sub < 2 → k < s.cfg.numStrips →
        (b.read (12 * led + 4 * ch + j)).getLsbD (s.cfg.laneMap sub k) =
          (wireByte s.cfg s.img p led k ch).getLsbD (7 - (2 * j + sub))

/-- R36, R56: no operation of the encoder clears a bit of `BUF`, and doing the same one twice leaves what doing it
once leaves. -/
def Obligations.EncoderOnlySetsBits : Prop :=
  ∀ (i : Instr) (s t : State),
    ((∃ led c b w, i = .muxbit led c b w) ∨ (∃ led c w, i = .serchan led c w) ∨
      (∃ p led, i = .encled p led) ∨ (∃ p m b, i = .encode p m b)) →
    exec i s = .next t →
    (∀ a n, (s.buf.read a).getLsbD n = true → (t.buf.read a).getLsbD n = true) ∧
    ∃ u, exec i t = .next u ∧ u.result = t.result ∧ ∀ a, u.buf.read a = t.buf.read a

/-! ## The host side -/

/-- R181: ZEROBUF writes zero to every byte of the buffer and changes nothing else. -/
def Obligations.ZerobufZeroesTheBuffer : Prop :=
  ∀ s : State, s.cfg.WellFormed →
    ∃ b : Memory, exec .zerobuf s = .next { s with buf := b, result := .nothing } ∧
      (∀ a, a < s.cfg.ledsPerStrip * 12 → b.read a = 0) ∧
      (∀ a, s.cfg.ledsPerStrip * 12 ≤ a → b.read a = s.buf.read a) ∧
      decode (Call.ofWord (13#5 ++ 0#27)) = .ok .zerobuf

/-- R182: PERSIST takes the collaborator's answer; on ok a copy of the whole buffer joins `PERSISTED`, on fail nothing
does; `BUF` is not changed. That the answer is the next scheduled one, or, when none is scheduled, the free value, is the
model's choice (log 7): the statement holds whatever that value is. -/
def Obligations.PersistAppendsOnOk : Prop :=
  ∀ s : State, s.cfg.WellFormed →
    ∃ (a : Answer) (rest : List Answer) (n : Nat),
      (s.answers = a :: rest ∧ n = s.draws ∨
        s.answers = [] ∧ rest = [] ∧ a = Config.freeAnswer s.draws ∧ n = s.draws + 1) ∧
      (a = .ok → exec .persist s = .next { s with
        answers := rest, draws := n, result := .answer .ok
        persisted := s.persisted ++ [(List.range (s.cfg.ledsPerStrip * 12)).map s.buf.read] }) ∧
      (a = .fail → exec .persist s = .next { s with answers := rest, draws := n, result := .answer .fail }) ∧
      decode (Call.ofWord (14#5 ++ 0#27)) = .ok .persist

/-- R183: TRANSMIT has its table word and no step: whenever the host asks for it, the machine stops by name. -/
def Obligations.TransmitHasNoStep : Prop :=
  (∀ s : State, exec .transmit s = .refused .transmitNotSpecified) ∧
  decode (Call.ofWord (15#5 ++ 0#27)) = .ok .transmit ∧
  (∀ (s : State) (rest : List HostAction), s.pending = .invoke (Call.ofWord (15#5 ++ 0#27)) :: rest →
    step s = .refused .transmitNotSpecified)

/-- R185 (decisions D17, D18 of the spec; log 16): RUN completes, and what it does is what the operations do that R185
invokes, in its order, stopping at the first failure. (Decisions D17 and D18 of the spec; log 16.) -/
def Obligations.RunIsItsOperations : Prop :=
  ∀ (s : State) (image : Bool) (absent : Option Nat), s.cfg.WellFormed →
    ∃ (t : State) (st : RunStatus),
      RunSteps image absent (List.range s.cfg.bitmatrixPatterns) s t st ∧
      exec (.run image absent) s = .next { t with result := .runStatus st } ∧
      decode { Call.ofWord (16#5 ++ BitVec.ofBool image ++ 0#26) with bufAbsentAt := absent } = .ok (.run image absent)

/-- R186, R188, R165: whatever the answers, RUN leaves in `PERSISTED` what was there and then exactly the buffers of the
patterns before the one it failed at, in order; a run that succeeds has persisted them all. That each is the closed form
rests on the spec's decision D17 (RUN zeroes before each ENCODE), and that a failed PERSIST ends the run is its decision
D18 (log 16). Where the answers come from is the model's choice (log 7). -/
def Obligations.RunKeepsEarlierPatterns : Prop :=
  ∀ (s : State) (image : Bool) (absent : Option Nat), s.cfg.WellFormed →
    ∃ (t : State) (st : RunStatus) (n : Nat),
      exec (.run image absent) s = .next t ∧ t.result = .runStatus st ∧
      t.cfg = s.cfg ∧ t.img = s.img ∧ t.pending = s.pending ∧
      t.persisted = s.persisted ++ (List.range n).map (closedBuffer s.cfg s.img) ∧
      (st = .success → n = s.cfg.bitmatrixPatterns) ∧
      (st = .failure → n < s.cfg.bitmatrixPatterns ∧ ∃ u v : State,
        RunSteps image absent (List.range n) s u .success ∧ RunSteps image absent [n] u v .failure ∧
        t = { v with result := .runStatus .failure })

/-- R188 (the spec's own derivation): with both references and every answer ok, RUN succeeds and persists the closed
form of every pattern, in order, whatever the buffer held before. (Decision D17 of the spec, log 16; scheduled answers:
log 7.) -/
def Obligations.RunPersistsEveryPattern : Prop :=
  ∀ (s : State) (rest : List Answer), s.cfg.WellFormed →
    s.answers = List.replicate s.cfg.bitmatrixPatterns .ok ++ rest →
    ∃ b : Memory, exec (.run true none) s = .next { s with
      buf := b, answers := rest, result := .runStatus .success
      persisted := s.persisted ++ (List.range s.cfg.bitmatrixPatterns).map (closedBuffer s.cfg s.img) }

/-- R187 (the spec's own derivation): three patterns, the second ENCODE forced to fail by an absent buffer: one
bitstream is persisted, that of pattern 0, the status is FAILURE, and pattern 2 is never attempted: `BUF` still holds
pattern 0's bytes and only one answer was taken. (Decision D17 of the spec, log 16; scheduled answers: log 7.) -/
def Obligations.RunForcedFailurePersistsOne : Prop :=
  ∀ (s : State) (rest : List Answer), s.cfg.WellFormed → s.cfg.bitmatrixPatterns = 3 →
    s.answers = .ok :: rest →
    ∃ b : Memory, exec (.run true (some 1)) s = .next { s with
      buf := b, answers := rest, result := .runStatus .failure
      persisted := s.persisted ++ [closedBuffer s.cfg s.img 0] } ∧
      ∀ a < s.cfg.ledsPerStrip * 12, b.read a = closedByte s.cfg s.img 0 a

/-- R204, R185, R188: when the answer to PERSIST of pattern `p` is fail, RUN stops with FAILURE, that pattern's buffer is
not in `PERSISTED`, the earlier ones are, and no further answer is asked for. That the run stops is the spec's decision
D18, and that the earlier entries are closed forms rests on its decision D17 (log 16). The scheduled answers are the
model's choice (log 7). -/
def Obligations.RunStopsAtFailedPersist : Prop :=
  ∀ (s : State) (p : Nat) (rest : List Answer), s.cfg.WellFormed → p < s.cfg.bitmatrixPatterns →
    s.answers = List.replicate p .ok ++ .fail :: rest →
    ∃ b : Memory, exec (.run true none) s = .next { s with
      buf := b, answers := rest, result := .runStatus .failure
      persisted := s.persisted ++ (List.range p).map (closedBuffer s.cfg s.img) }

/-- R185's corner cases and R210: with no patterns RUN succeeds and changes nothing; with an absent image it fails at
pattern 0, nothing is persisted and no answer is asked for, and the buffer it leaves is zero where its reference was
present. (Decision D17 of the spec; log 16.) -/
def Obligations.RunCornerCases : Prop :=
  (∀ (s : State) (image : Bool) (absent : Option Nat), s.cfg.WellFormed → s.cfg.bitmatrixPatterns = 0 →
    exec (.run image absent) s = .next { s with result := .runStatus .success }) ∧
  (∀ (s : State) (absent : Option Nat), s.cfg.WellFormed → 0 < s.cfg.bitmatrixPatterns →
    ∃ b : Memory,
      exec (.run false absent) s = .next { s with buf := b, result := .runStatus .failure } ∧
      (absent ≠ some 0 → ∀ a < s.cfg.ledsPerStrip * 12, b.read a = 0) ∧
      (absent = some 0 → b = s.buf))

/-! ## The whole machine -/

/-- R22: no step changes a configuration constant. -/
def Obligations.ConfigurationNeverChanges : Prop :=
  ∀ s t : State, step s = .next t → t.cfg = s.cfg

/-- R24, R60: no operation writes the image or touches the host's requests; a step changes the image only when the
host writes it. -/
def Obligations.OnlyTheHostWritesTheImage : Prop :=
  (∀ (i : Instr) (s t : State), exec i s = .next t → t.img = s.img ∧ t.pending = s.pending) ∧
  (∀ s t : State, step s = .next t → t.img = s.img ∨ ∃ n v rest, s.pending = .writeImg n v :: rest)

/-- R20's table: only MUXBIT, SERCHAN, ENCLED, ENCODE, ZEROBUF and RUN change `BUF`; only PERSIST and RUN append to
`PERSISTED` or take an answer, and nothing ever leaves `PERSISTED`. -/
def Obligations.WritersOfBufferAndPersisted : Prop :=
  ∀ (i : Instr) (s t : State), exec i s = .next t →
    (t.buf = s.buf ∨ (∃ led c b w, i = .muxbit led c b w) ∨ (∃ led c w, i = .serchan led c w) ∨
      (∃ p led, i = .encled p led) ∨ (∃ p m b, i = .encode p m b) ∨ i = .zerobuf ∨ ∃ m a, i = .run m a) ∧
    (t.persisted = s.persisted ∧ t.answers = s.answers ∧ t.draws = s.draws ∨ i = .persist ∨ ∃ m a, i = .run m a) ∧
    ∃ more, t.persisted = s.persisted ++ more

/-- The invariant of the memories and of `PERSISTED`: every step, from every state that meets it, keeps it. -/
def Obligations.StepKeepsInvariant : Prop :=
  ∀ s t : State, s.Inv → step s = .next t → t.Inv

/-- The state after reset: the invariant holds, nothing is persisted and no memory byte is listed (R39), and the build
of log 1 is well formed. -/
def Obligations.ResetMeetsInvariant : Prop :=
  State.reset.Inv ∧ State.reset.persisted = [] ∧ State.reset.img = [] ∧ State.reset.buf = [] ∧
  State.reset.cfg.WellFormed

/-- R10 (decision D5 of the spec; log 12): the default `LANE_MAP` puts sub-bit 0 of strip `k` at bit `4 + k` and
sub-bit 1 at bit `k`, for up to four strips, with no clash; R237: a fifth strip would clash. -/
def Obligations.DefaultLaneMapFitsFourStrips : Prop :=
  (∀ (rows cols leds patterns : Nat) (strips : List Quadrant) (k : Nat), strips.length ≤ 4 → k < strips.length →
    (Config.withDefaultLanes rows cols leds patterns strips).laneMap 0 k = 4 + k ∧
    (Config.withDefaultLanes rows cols leds patterns strips).laneMap 1 k = k) ∧
  (∀ n ≤ 4, (upperLanes n ++ lowerLanes n).Nodup) ∧ ¬ (upperLanes 5 ++ lowerLanes 5).Nodup

/-- R9 (decisions D5, D8 of the spec; log 8): an operation that reads the configuration is refused under one that is
not well formed. -/
def Obligations.IllFormedConfigurationRefused : Prop :=
  ∀ (s : State) (p l : Nat) (q : Quadrant) (c : BitVec 2) (b : BitVec 3) (w : StripBytes) (m m' : Bool)
    (absent : Option Nat), ¬ s.cfg.WellFormed → c ≠ 3 →
    ∀ i ∈ [resolveOf q p l, .getcolor p l q, .muxbit l c b w, .serchan l c w, .encled p l, .encode p m m',
        .zerobuf, .persist, .run m absent],
      exec i s = .refused .illFormedConfiguration

/-- R56, R94, log 9: MUXBIT, SERCHAN and ENCLED stop on an LED outside the strip, and MUXBIT and SERCHAN on channel
position 3. -/
def Obligations.EncoderOperandsOutsideRangeStop : Prop :=
  (∀ (s : State) (p l : Nat) (c : BitVec 2) (b : BitVec 3) (w : StripBytes), s.cfg.WellFormed →
    s.cfg.ledsPerStrip ≤ l → c ≠ 3 →
    ∀ i ∈ [Instr.muxbit l c b w, .serchan l c w, .encled p l], exec i s = .fault .ledOutOfRange) ∧
  (∀ (s : State) (l : Nat) (b : BitVec 3) (w : StripBytes),
    exec (.muxbit l 3 b w) s = .refused .channelThree ∧ exec (.serchan l 3 w) s = .refused .channelThree)

/-! ## Table words and steps -/

/-- Decode and encode agree: every well-formed operation, with every operand at every value, is read back whole. -/
def Obligations.DecodeOfEncode : Prop :=
  ∀ i : Instr, i.wellFormed = true → decode (encode i) = .ok i

/-- The other direction: what the decoder accepts is well formed, and its encoding has the same table word. -/
def Obligations.EncodeOfDecode : Prop :=
  ∀ (k : Call) (i : Instr), decode k = .ok i → i.wellFormed = true ∧ (encode i).word = k.word

/-- R94: `op_id` 17 to 31 and channel position 3 of MUXBIT and SERCHAN name no operation, and a step that meets one is
refused. -/
def Obligations.ReservedWordsRefused : Prop :=
  ∀ (k : Call) (s : State) (rest : List HostAction), s.pending = .invoke k :: rest →
    (17 ≤ (k.word.extractLsb' 27 5).toNat → step s = .refused (.notAnOperation .reservedOpId)) ∧
    ((k.word.extractLsb' 27 5).toNat = 9 ∨ (k.word.extractLsb' 27 5).toNat = 10 →
      k.word.extractLsb' 25 2 = 3 → step s = .refused (.notAnOperation .channelThree))

/-- A step runs the decoded operation: when the host's next request decodes to `i`, the step is `exec i` with that
request taken up; a request that does not decode is refused by name; with no request nothing changes; a host write is its
write inside the two spaces, stops with `noSuchByte` from their sizes on, and is refused under an ill-formed
configuration. (The queue and the host writes with their stops are the model's choice: log 5, log 18, log 8, log 11.) -/
def Obligations.StepRunsTheDecodedOperation : Prop :=
  (∀ (s : State) (k : Call) (rest : List HostAction), s.pending = .invoke k :: rest →
    (∀ i, decode k = .ok i → step s = exec i { s with pending := rest }) ∧
    (∀ e, decode k = .error e → step s = .refused (.notAnOperation e))) ∧
  (∀ s : State, s.pending = [] → step s = .next s) ∧
  (∀ (s : State) (n : Nat) (v : Byte) (rest : List HostAction), s.pending = .writeImg n v :: rest →
    (s.cfg.WellFormed → n < s.cfg.imgRows * s.cfg.imgCols →
      ∃ m : Memory, step s = .next { s with img := m, pending := rest } ∧
        ∀ a, m.read a = if a = n then v else s.img.read a) ∧
    (s.cfg.WellFormed → s.cfg.imgRows * s.cfg.imgCols ≤ n → step s = .fault .noSuchByte) ∧
    (¬ s.cfg.WellFormed → step s = .refused .illFormedConfiguration)) ∧
  (∀ (s : State) (n : Nat) (v : Byte) (rest : List HostAction), s.pending = .writeBuf n v :: rest →
    (s.cfg.WellFormed → n < s.cfg.ledsPerStrip * 12 →
      ∃ m : Memory, step s = .next { s with buf := m, pending := rest } ∧
        ∀ a, m.read a = if a = n then v else s.buf.read a) ∧
    (s.cfg.WellFormed → s.cfg.ledsPerStrip * 12 ≤ n → step s = .fault .noSuchByte) ∧
    (¬ s.cfg.WellFormed → step s = .refused .illFormedConfiguration))

/-- A few words written out from 30_encoding.md R93 and 95_test_vectors.md P1 to P3. -/
def Obligations.SampleWordsDecode : Prop :=
  decodeTableWord 32 0b00000101101100000000000000000000 = some (.unpackR 0xB6) ∧
  decodeTableWord 32 0b00011101000000000000000000000000 = some (.rescale3 5) ∧
  decodeTableWord 32 0b00110100000000000000000000000000 = some (.resolveTr 0 0) ∧
  decodeTableWord 32 0b01000101000001010000010000000000 = some (.reorder 160 160 128) ∧
  decodeTableWord 32 0b01001011010000000000000000000000 = some (.muxbit 0 1 5 StripBytes.zero) ∧
  decodeTableWord 32 0b01100100000000000000000000000000 = some (.encode 0 true false) ∧
  decodeTableWord 32 0b10000100000000000000000000000000 = some (.run true none)
end

