-- ==== Sys2Proof/Laws/Decode.lean ====
section
/-! SUPPORT. The decoder, one lemma per `op_id`, and how a table word splits into its fields. -/

namespace Sys2Proof

section
variable {k : Call}

theorem decode_unpackR (h : opId k.word = 0#5) : decode k = padded k.word 19 (.unpackR (operand8 k.word)) := by
  unfold decode; rw [h]; rfl
theorem decode_unpackG (h : opId k.word = 1#5) : decode k = padded k.word 19 (.unpackG (operand8 k.word)) := by
  unfold decode; rw [h]; rfl
theorem decode_unpackB (h : opId k.word = 2#5) : decode k = padded k.word 19 (.unpackB (operand8 k.word)) := by
  unfold decode; rw [h]; rfl
theorem decode_rescale3 (h : opId k.word = 3#5) :
    decode k = padded k.word 24 (.rescale3 (k.word.extractLsb' 24 3)) := by
  unfold decode; rw [h]; rfl
theorem decode_rescale2 (h : opId k.word = 4#5) : decode k = padded k.word 25 (.rescale2 (operand2 k.word)) := by
  unfold decode; rw [h]; rfl
theorem decode_expand (h : opId k.word = 5#5) : decode k = padded k.word 19 (.expand (operand8 k.word)) := by
  unfold decode; rw [h]; rfl
theorem decode_resolve (h : opId k.word = 6#5) :
    decode k = padded k.word 25 (match quadrantOf (operand2 k.word) with
      | .tl => .resolveTl k.pattern k.led
      | .bl => .resolveBl k.pattern k.led
      | .tr => .resolveTr k.pattern k.led
      | .br => .resolveBr k.pattern k.led) := by
  unfold decode; rw [h]
  cases hq : quadrantOf (operand2 k.word) <;> simp
theorem decode_getcolor (h : opId k.word = 7#5) :
    decode k = padded k.word 25 (.getcolor k.pattern k.led (quadrantOf (operand2 k.word))) := by
  unfold decode; rw [h]; rfl
theorem decode_reorder (h : opId k.word = 8#5) :
    decode k = padded k.word 3
      (.reorder (k.word.extractLsb' 19 8) (k.word.extractLsb' 11 8) (k.word.extractLsb' 3 8)) := by
  unfold decode; rw [h]; rfl
theorem decode_muxbit (h : opId k.word = 9#5) :
    decode k = if operand2 k.word = 3 then .error .channelThree
      else padded k.word 22 (.muxbit k.led (operand2 k.word) (k.word.extractLsb' 22 3) k.wire) := by
  unfold decode; rw [h]; rfl
theorem decode_serchan (h : opId k.word = 10#5) :
    decode k = if operand2 k.word = 3 then .error .channelThree
      else padded k.word 25 (.serchan k.led (operand2 k.word) k.wire) := by
  unfold decode; rw [h]; rfl
theorem decode_encled (h : opId k.word = 11#5) : decode k = padded k.word 27 (.encled k.pattern k.led) := by
  unfold decode; rw [h]; rfl
theorem decode_encode (h : opId k.word = 12#5) :
    decode k = padded k.word 25 (.encode k.pattern (k.word.getLsbD 26) (k.word.getLsbD 25)) := by
  unfold decode; rw [h]; rfl
theorem decode_zerobuf (h : opId k.word = 13#5) : decode k = padded k.word 27 .zerobuf := by
  unfold decode; rw [h]; rfl
theorem decode_persist (h : opId k.word = 14#5) : decode k = padded k.word 27 .persist := by
  unfold decode; rw [h]; rfl
theorem decode_transmit (h : opId k.word = 15#5) : decode k = padded k.word 27 .transmit := by
  unfold decode; rw [h]; rfl
theorem decode_run (h : opId k.word = 16#5) :
    decode k = padded k.word 26 (.run (k.word.getLsbD 26) k.bufAbsentAt) := by
  unfold decode; rw [h]; rfl

end

/-- What `padded` accepts, and what it then answers. -/
theorem padded_eq_ok {w : TableWord} {n : Nat} {i j : Instr} (h : padded w n i = .ok j) :
    w.extractLsb' 0 n = 0 ∧ j = i := by
  unfold padded at h
  split at h
  · cases h
    exact ⟨‹_›, rfl⟩
  · cases h

theorem padded_of_zero {w : TableWord} {n : Nat} (h : w.extractLsb' 0 n = 0) (i : Instr) :
    padded w n i = .ok i := if_pos h

/-- A word with a byte operand, taken apart: UNPACK_*, EXPAND. -/
theorem byteWord_fields (op : BitVec 5) (px : Byte) :
    opId (op ++ px ++ 0#19) = op ∧ operand8 (op ++ px ++ 0#19) = px ∧
    (op ++ px ++ 0#19 : TableWord).extractLsb' 0 19 = 0 := by
  refine ⟨?_, ?_, ?_⟩ <;>
  · apply BitVec.eq_of_getLsbD_eq
    intro i hi
    simp only [opId, operand8, BitVec.getLsbD_extractLsb', BitVec.getLsbD_append]
    interval_cases i <;> simp

/-- REORDER's word, taken apart. -/
theorem reorderWord_fields (r g b : Byte) :
    opId (8#5 ++ r ++ g ++ b ++ 0#3) = 8#5 ∧
    (8#5 ++ r ++ g ++ b ++ 0#3 : TableWord).extractLsb' 19 8 = r ∧
    (8#5 ++ r ++ g ++ b ++ 0#3 : TableWord).extractLsb' 11 8 = g ∧
    (8#5 ++ r ++ g ++ b ++ 0#3 : TableWord).extractLsb' 3 8 = b ∧
    (8#5 ++ r ++ g ++ b ++ 0#3 : TableWord).extractLsb' 0 3 = 0 := by
  refine ⟨?_, ?_, ?_, ?_, ?_⟩ <;>
  · apply BitVec.eq_of_getLsbD_eq
    intro i hi
    simp only [opId, BitVec.getLsbD_extractLsb', BitVec.getLsbD_append]
    interval_cases i <;> simp

/-- MUXBIT's word, taken apart. -/
theorem muxbitWord_fields : ∀ (c : BitVec 2) (i : BitVec 3),
    opId (9#5 ++ c ++ i ++ 0#22) = 9#5 ∧ operand2 (9#5 ++ c ++ i ++ 0#22) = c ∧
    (9#5 ++ c ++ i ++ 0#22 : TableWord).extractLsb' 22 3 = i ∧
    (9#5 ++ c ++ i ++ 0#22 : TableWord).extractLsb' 0 22 = 0 := by decide

/-- The word of an operation with a two-bit operand, taken apart. -/
theorem operand2Word_fields : ∀ (op : BitVec 5) (c : BitVec 2),
    opId (op ++ c ++ 0#25) = op ∧ operand2 (op ++ c ++ 0#25) = c ∧
    (op ++ c ++ 0#25 : TableWord).extractLsb' 0 25 = 0 := by decide

end Sys2Proof
end

