-- ==== Sys2Proof/Laws/Memory.lean ====
section
/-! SUPPORT. The laws of the byte spaces: what a read gives after a write, and that every memory operation keeps the
canonical form and stays inside its space. -/

namespace Sys2Proof.Machine

theorem Memory.read_erase (m : Memory) (n a : Nat) :
    (m.erase n).read a = if a = n then unwritten else m.read a := by
  induction m with
  | nil => simp [Memory.erase, Memory.read]
  | cons c m ih =>
    simp only [Memory.erase] at ih
    by_cases hc : c.1 = n
    · simp only [Memory.erase, List.filter_cons, hc, bne_self_eq_false, Bool.false_eq_true, if_false, ih, Memory.read]
      split <;> simp_all [eq_comm]
    · simp only [Memory.erase, List.filter_cons, bne_iff_ne, ne_eq, hc, not_false_eq_true, if_true, ih, Memory.read]
      split <;> simp_all

theorem Memory.read_place {m : Memory} {n : Nat} (h : ∀ c ∈ m, c.1 ≠ n) (v : Byte) (a : Nat) :
    (m.place n v).read a = if a = n then v else m.read a := by
  induction m with
  | nil => simp [Memory.place, Memory.read, eq_comm]
  | cons c m ih =>
    have hc : c.1 ≠ n := h c (by simp)
    have ih := ih fun d hd => h d (by simp [hd])
    by_cases hlt : n < c.1
    · simp [Memory.place, hlt, Memory.read, eq_comm]
    · simp only [Memory.place, hlt, if_false, Memory.read, ih]
      split <;> simp_all

theorem Memory.erase_address_ne (m : Memory) (n : Nat) : ∀ c ∈ m.erase n, c.1 ≠ n := by
  intro c hc
  simpa using (List.mem_filter.mp hc).2

/-- Read after write: the byte written, and every other byte as before. -/
@[simp] theorem Memory.read_write (m : Memory) (n : Nat) (v : Byte) (a : Nat) :
    (m.write n v).read a = if a = n then v else m.read a := by
  unfold Memory.write
  split
  · simp [Memory.read_erase, *]
  · rw [Memory.read_place (m.erase_address_ne n), Memory.read_erase]
    split <;> simp_all

/-- `BufOr` ORs into one byte and leaves the others (R56). -/
@[simp] theorem Memory.read_or (m : Memory) (n : Nat) (v : Byte) (a : Nat) :
    (m.or n v).read a = if a = n then m.read n ||| v else m.read a := by
  simp [Memory.or]

theorem Memory.wf_erase {m : Memory} (h : m.wf) (n : Nat) : (m.erase n).wf :=
  ⟨h.1.filter _, fun c hc => h.2 c (List.mem_filter.mp hc).1⟩

theorem Memory.mem_place {m : Memory} {n : Nat} {v : Byte} {c : Host.Cell} (h : c ∈ m.place n v) :
    c = (n, v) ∨ c ∈ m := by
  induction m with
  | nil => simpa [Memory.place] using h
  | cons d m ih =>
    simp only [Memory.place] at h
    split at h
    · simpa using h
    · rcases List.mem_cons.mp h with rfl | h
      · simp
      · rcases ih h with h | h <;> simp [h]

theorem Memory.wf_place {m : Memory} (h : m.wf) {n : Nat} (hn : ∀ c ∈ m, c.1 ≠ n) {v : Byte} (hv : v ≠ unwritten) :
    (m.place n v).wf := by
  refine ⟨?_, fun c hc => (Memory.mem_place hc).elim (fun e => e ▸ hv) (h.2 c)⟩
  have hs := h.1
  clear h
  induction m with
  | nil => simp [Memory.place]
  | cons d m ih =>
    have hd := List.pairwise_cons.mp hs
    simp only [Memory.place]
    split
    · rename_i hlt
      refine List.pairwise_cons.mpr ⟨fun c hc => ?_, hs⟩
      rcases List.mem_cons.mp hc with rfl | hc
      · exact hlt
      · exact Nat.lt_trans hlt (hd.1 c hc)
    · rename_i hge
      refine List.pairwise_cons.mpr ⟨fun c hc => ?_, ih (fun c hc => hn c (by simp [hc])) hd.2⟩
      rcases Memory.mem_place hc with rfl | hc
      · have := hn d (by simp)
        simp only at hge ⊢
        omega
      · exact hd.1 c hc

/-- A write keeps the canonical form. -/
theorem Memory.wf_write {m : Memory} (h : m.wf) (n : Nat) (v : Byte) : (m.write n v).wf := by
  unfold Memory.write
  split
  · exact Memory.wf_erase h n
  · exact Memory.wf_place (Memory.wf_erase h n) (m.erase_address_ne n) ‹_›

theorem Memory.wf_or {m : Memory} (h : m.wf) (n : Nat) (v : Byte) : (m.or n v).wf := Memory.wf_write h _ _

/-- A write below `k` stays inside `k` bytes. -/
theorem Memory.within_write {m : Memory} {k n : Nat} (h : m.within k) (hn : n < k) (v : Byte) :
    (m.write n v).within k := by
  have he : (m.erase n).within k := fun c hc => h c (List.mem_filter.mp hc).1
  unfold Memory.write
  split
  · exact he
  · exact fun c hc => (Memory.mem_place hc).elim (fun e => e ▸ hn) (he c)

theorem Memory.within_or {m : Memory} {k n : Nat} (h : m.within k) (hn : n < k) (v : Byte) :
    (m.or n v).within k := Memory.within_write h hn _

theorem Memory.read_below {m : Memory} {n : Nat} (h : ∀ c ∈ m, n < c.1) : m.read n = unwritten := by
  induction m with
  | nil => rfl
  | cons c m ih =>
    have hc := h c (by simp)
    rw [show c = (c.1, c.2) from rfl, Memory.read, if_neg (by omega)]
    exact ih fun d hd => h d (by simp [hd])

/-- Canonical memories that read alike are equal data. -/
theorem Memory.ext_of_read {m : Memory} (hm : m.wf) {k : Memory} (hk : k.wf) (h : ∀ a, m.read a = k.read a) :
    m = k := by
  induction m generalizing k with
  | nil =>
    cases k with
    | nil => rfl
    | cons d k =>
      have := h d.1
      exact absurd (by simpa [Memory.read] using this.symm) (hk.2 d (by simp))
  | cons c m ih =>
    have hc := List.pairwise_cons.mp hm.1
    cases k with
    | nil =>
      have := h c.1
      exact absurd (by simpa [Memory.read] using this) (hm.2 c (by simp))
    | cons d k =>
      have hd := List.pairwise_cons.mp hk.1
      have hcu := hm.2 c (by simp)
      have hdu := hk.2 d (by simp)
      have first : c.1 = d.1 := by
        rcases Nat.lt_trichotomy c.1 d.1 with hlt | heq | hgt
        · have e := h c.1
          rw [Memory.read_below (m := d :: k) (n := c.1)] at e
          · exact absurd (by simpa [Memory.read] using e) hcu
          · intro x hx
            rcases List.mem_cons.mp hx with rfl | hx
            · exact hlt
            · exact Nat.lt_trans hlt (hd.1 x hx)
        · exact heq
        · have e := h d.1
          rw [Memory.read_below (m := c :: m) (n := d.1)] at e
          · exact absurd (by simpa [Memory.read] using e.symm) hdu
          · intro x hx
            rcases List.mem_cons.mp hx with rfl | hx
            · exact hgt
            · exact Nat.lt_trans hgt (hc.1 x hx)
      have second : c.2 = d.2 := by
        have e := h c.1
        simpa [Memory.read, first] using e
      have hcd : c = d := Prod.ext first second
      subst hcd
      have tails : m = k := by
        refine ih ⟨hc.2, fun x hx => hm.2 x (by simp [hx])⟩ ⟨hd.2, fun x hx => hk.2 x (by simp [hx])⟩ fun a => ?_
        by_cases ha : a = c.1
        · rw [ha, Memory.read_below hc.1, Memory.read_below hd.1]
        · have e := h a
          simpa [Memory.read, Ne.symm ha] using e
      rw [tails]

/-- ORing zero in changes nothing (R56: "`BufOr(N, 0)` changes nothing"). -/
theorem Memory.or_zero {m : Memory} (h : m.wf) (n : Nat) : m.or n 0 = m := by
  refine Memory.ext_of_read (Memory.wf_or h n 0) h fun a => ?_
  rw [Memory.read_or]
  split <;> simp_all

end Sys2Proof.Machine
end

