-- ==== Sys2Proof/Laws/Encoder.lean ====
section
/-! SUPPORT. What each part of the encoder does to one byte of `BUF`, and that each keeps the canonical form and stays
inside the buffer. -/

namespace Sys2Proof.Machine

/-- A bit of an OR over a list is set exactly when it was set before or some element sets it. -/
theorem foldl_or_getLsbD {α : Type} (f : α → Byte) (l : List α) (v : Byte) (p : Nat) :
    (l.foldl (fun v x => v ||| f x) v).getLsbD p = (v.getLsbD p || l.any fun x => (f x).getLsbD p) := by
  induction l generalizing v with
  | nil => simp
  | cons x l ih => simp [ih, Bool.or_assoc]

theorem laneBit_getLsbD (x : Byte) (b lane p : Nat) :
    (laneBit x b lane).getLsbD p = (decide (p < 8) && decide (p = lane) && x.getLsbD b) := by
  cases hx : x.getLsbD b
  · simp [laneBit, hx]
  · simp only [laneBit, hx, BitVec.getLsbD_shiftLeft, BitVec.getLsbD_setWidth, BitVec.getLsbD_ofBool]
    rcases Nat.lt_trichotomy p lane with h | h | h
    · simp [h, Nat.ne_of_lt h]
    · simp [h]
    · have : ¬ (p - lane = 0) := by omega
      simp [this, Nat.ne_of_gt h]

theorem laneMap_lt (c : Config) (s k : Nat) : c.laneMap s k < 8 := Fin.isLt _

/-- Bit `p` of the byte MUXBIT ORs in is set exactly when some strip's lane is `p` and its bit is 1 (R155, R156). -/
theorem muxByte_getLsbD (c : Config) (wire : Nat → Byte) (i p : Nat) :
    (muxByte c wire i).getLsbD p =
      decide (∃ k < c.numStrips, c.laneMap (i % 2) k = p ∧ (wire k).getLsbD (7 - i) = true) := by
  rw [muxByte, foldl_or_getLsbD, Bool.eq_iff_iff]
  simp only [BitVec.ofNat_eq_ofNat, BitVec.getLsbD_zero, Bool.false_or, List.any_eq_true, List.mem_range, laneBit_getLsbD, bitOf, subOf,
    Bool.and_eq_true, decide_eq_true_eq]
  constructor
  · rintro ⟨k, hk, ⟨-, hp⟩, hb⟩
    exact ⟨k, hk, hp.symm, hb⟩
  · rintro ⟨k, hk, rfl, hb⟩
    exact ⟨k, hk, ⟨laneMap_lt .., rfl⟩, hb⟩

theorem muxByte_congr {c : Config} {wire wire' : Nat → Byte} (h : ∀ k < c.numStrips, wire k = wire' k) (i : Nat) :
    muxByte c wire i = muxByte c wire' i := by
  apply BitVec.eq_of_getLsbD_eq
  intro p _
  rw [muxByte_getLsbD, muxByte_getLsbD, decide_eq_decide]
  constructor <;> rintro ⟨k, hk, hp, hb⟩ <;> exact ⟨k, hk, hp, by simpa [h k hk] using hb⟩

/-- The two MUXBITs of pair `j` OR in R159's byte. -/
theorem muxByte_pair (c : Config) (wire : Nat → Byte) (j : Nat) :
    muxByte c wire (2 * j) ||| muxByte c wire (2 * j + 1) = closedPair c wire j := by
  apply BitVec.eq_of_getLsbD_eq
  intro p _
  have e1 : 7 - (2 * j + 1) = 6 - 2 * j := by omega
  have e2 : (2 * j) % 2 = 0 := by omega
  have e3 : (2 * j + 1) % 2 = 1 := by omega
  rw [BitVec.getLsbD_or, muxByte, muxByte, closedPair, foldl_or_getLsbD, foldl_or_getLsbD, foldl_or_getLsbD]
  simp only [BitVec.ofNat_eq_ofNat, BitVec.getLsbD_zero, Bool.false_or, bitOf, subOf, e1, e2, e3, BitVec.getLsbD_or]
  rw [Bool.eq_iff_iff]
  simp only [Bool.or_eq_true, List.any_eq_true]
  constructor
  · rintro (⟨k, hk, h⟩ | ⟨k, hk, h⟩)
    · exact ⟨k, hk, .inl h⟩
    · exact ⟨k, hk, .inr h⟩
  · rintro ⟨k, hk, h | h⟩
    · exact .inl ⟨k, hk, h⟩
    · exact .inr ⟨k, hk, h⟩

theorem closedPair_congr {c : Config} {wire wire' : Nat → Byte} (h : ∀ k < c.numStrips, wire k = wire' k) (j : Nat) :
    closedPair c wire j = closedPair c wire' j := by
  rw [← muxByte_pair, ← muxByte_pair, muxByte_congr h, muxByte_congr h]

/-- MUXBIT ORs into one byte and leaves every other (R156). -/
theorem muxBit_read (c : Config) (wire : Nat → Byte) (led ch i : Nat) (b : Memory) (a : Nat) :
    (muxBit c wire led ch i b).read a =
      if a = bufIndex led ch (i / 2) then b.read a ||| muxByte c wire i else b.read a := by
  rw [muxBit, Memory.read_or, pairOf]
  split <;> simp_all

theorem bufIndex_pair_inj (led ch j j' : Nat) : bufIndex led ch j = bufIndex led ch j' ↔ j = j' := by
  unfold bufIndex
  omega

/-- SERCHAN ORs R159's bytes into its four bytes and leaves every other (R158, R159). -/
theorem serChan_read (c : Config) (wire : Nat → Byte) (led ch : Nat) (b : Memory) (a : Nat) :
    (serChan c wire led ch b).read a =
      if bufIndex led ch 0 ≤ a ∧ a < bufIndex led ch 4 then
        b.read a ||| closedPair c wire (a - bufIndex led ch 0)
      else b.read a := by
  simp only [serChan, List.range, List.range.loop, List.foldl, muxBit_read]
  by_cases h : bufIndex led ch 0 ≤ a ∧ a < bufIndex led ch 4
  · rw [if_pos h]
    obtain ⟨j, hj, rfl⟩ : ∃ j, j < 4 ∧ a = bufIndex led ch j :=
      ⟨a - bufIndex led ch 0, by unfold bufIndex at *; omega, by unfold bufIndex at *; omega⟩
    have hsub : bufIndex led ch j - bufIndex led ch 0 = j := by
      unfold bufIndex
      omega
    rw [hsub, ← muxByte_pair]
    simp only [bufIndex_pair_inj]
    have : j = 0 ∨ j = 1 ∨ j = 2 ∨ j = 3 := by omega
    rcases this with rfl | rfl | rfl | rfl <;> simp [BitVec.or_assoc]
  · rw [if_neg h]
    have hne : ∀ j < 4, ¬ a = bufIndex led ch j := by
      rintro j hj rfl
      refine h ⟨?_, ?_⟩ <;> unfold bufIndex <;> omega
    simp [hne 0 (by omega), hne 1 (by omega), hne 2 (by omega), hne 3 (by omega)]

/-- The four bytes of a channel position, by LED and channel position. -/
theorem inChannel_iff {led ch a : Nat} (hc : ch < 3) :
    (bufIndex led ch 0 ≤ a ∧ a < bufIndex led ch 4) ↔ a / 12 = led ∧ a % 12 / 4 = ch := by
  unfold bufIndex
  omega

/-- ENCLED ORs the LED's twelve bytes of R165 and leaves every other byte (R160). -/
theorem encLed_read (c : Config) (img : Memory) (pattern led : Nat) (b : Memory) (a : Nat) :
    (encLed c img pattern led b).read a =
      if a / 12 = led then b.read a ||| closedByte c img pattern a else b.read a := by
  simp only [encLed, List.range, List.range.loop, List.foldl, serChan_read]
  by_cases h : a / 12 = led
  · subst h
    rw [if_pos rfl]
    have hj : a - bufIndex (a / 12) (a % 12 / 4) 0 = a % 4 := by
      unfold bufIndex
      omega
    have : a % 12 / 4 = 0 ∨ a % 12 / 4 = 1 ∨ a % 12 / 4 = 2 := by omega
    simp only [inChannel_iff (show 0 < 3 by omega), inChannel_iff (show 1 < 3 by omega),
      inChannel_iff (show 2 < 3 by omega), true_and]
    rcases this with e | e | e <;> rw [e] at hj <;> simp [closedByte, e, hj, wires, wireByte]
  · rw [if_neg h]
    simp only [inChannel_iff (show 0 < 3 by omega), inChannel_iff (show 1 < 3 by omega),
      inChannel_iff (show 2 < 3 by omega), h, false_and, if_false]

/-- The LED loop ORs R165's byte into every byte of its LEDs and leaves every other (R164). -/
theorem encodeLoop_read (c : Config) (img : Memory) (pattern n : Nat) (b : Memory) (a : Nat) :
    ((List.range n).foldl (fun b led => encLed c img pattern led b) b).read a =
      if a < n * 12 then b.read a ||| closedByte c img pattern a else b.read a := by
  induction n with
  | zero => simp
  | succ n ih =>
    rw [List.range_succ, List.foldl_append, List.foldl_cons, List.foldl_nil, encLed_read, ih]
    by_cases h : a / 12 = n
    · rw [if_pos h, if_neg (by omega), if_pos (by omega)]
    · rw [if_neg h]
      by_cases h' : a < n * 12
      · rw [if_pos h', if_pos (by omega)]
      · rw [if_neg h', if_neg (by omega)]

theorem encodeLeds_read (c : Config) (img : Memory) (pattern : Nat) (b : Memory) (a : Nat) :
    (encodeLeds c img pattern b).read a =
      if a < c.bufLen then b.read a ||| closedByte c img pattern a else b.read a :=
  encodeLoop_read c img pattern c.ledsPerStrip b a

/-- A loop keeps what each of its steps keeps. -/
theorem foldl_keeps {α β : Type} {P : β → Prop} {f : β → α → β} {l : List α} {b : β} (h : P b)
    (hf : ∀ b x, x ∈ l → P b → P (f b x)) : P (l.foldl f b) := by
  induction l generalizing b with
  | nil => exact h
  | cons x l ih =>
    exact ih (hf b x (by simp) h) fun b y hy => hf b y (by simp [hy])

/-- Canonical form and staying inside the buffer, together. -/
def Fits (n : Nat) (b : Memory) : Prop := b.wf ∧ b.within n

theorem Fits.write {n a : Nat} {b : Memory} (h : Fits n b) (ha : a < n) (v : Byte) : Fits n (b.write a v) :=
  ⟨Memory.wf_write h.1 a v, Memory.within_write h.2 ha v⟩

/-- R58: every index the encoder makes for an LED of the strip is inside the buffer. -/
theorem bufIndex_lt {c : Config} {led ch j : Nat} (hl : led < c.ledsPerStrip) (hc : ch < 3) (hj : j < 4) :
    bufIndex led ch j < c.bufLen := by
  unfold bufIndex Config.bufLen
  omega

theorem muxBit_fits {c : Config} {wire : Nat → Byte} {led ch i : Nat} {b : Memory} (h : Fits c.bufLen b)
    (hl : led < c.ledsPerStrip) (hc : ch < 3) (hi : i < 8) : Fits c.bufLen (muxBit c wire led ch i b) :=
  h.write (bufIndex_lt hl hc (by unfold pairOf; omega)) _

theorem serChan_fits {c : Config} {wire : Nat → Byte} {led ch : Nat} {b : Memory} (h : Fits c.bufLen b)
    (hl : led < c.ledsPerStrip) (hc : ch < 3) : Fits c.bufLen (serChan c wire led ch b) :=
  foldl_keeps h fun _ _ hi hb => muxBit_fits hb hl hc (List.mem_range.mp hi)

theorem encLed_fits {c : Config} {img : Memory} {pattern led : Nat} {b : Memory} (h : Fits c.bufLen b)
    (hl : led < c.ledsPerStrip) : Fits c.bufLen (encLed c img pattern led b) :=
  foldl_keeps h fun _ _ hc hb => serChan_fits hb hl (List.mem_range.mp hc)

theorem encodeLeds_fits {c : Config} {img : Memory} {pattern : Nat} {b : Memory} (h : Fits c.bufLen b) :
    Fits c.bufLen (encodeLeds c img pattern b) :=
  foldl_keeps h fun _ _ hl hb => encLed_fits hb (List.mem_range.mp hl)

end Sys2Proof.Machine
end

