-- ==== Sys2Proof/Laws/State.lean ====
section
/-! SUPPORT. One lemma per field per named update of State. -/

namespace Sys2Proof.Machine

section
variable (s : State) (r : Result) (b : Memory) (rest : List HostAction)

@[simp] theorem State.withResult_cfg : (s.withResult r).cfg = s.cfg := rfl
@[simp] theorem State.withResult_img : (s.withResult r).img = s.img := rfl
@[simp] theorem State.withResult_buf : (s.withResult r).buf = s.buf := rfl
@[simp] theorem State.withResult_persisted : (s.withResult r).persisted = s.persisted := rfl
@[simp] theorem State.withResult_result : (s.withResult r).result = r := rfl
@[simp] theorem State.withResult_pending : (s.withResult r).pending = s.pending := rfl
@[simp] theorem State.withResult_answers : (s.withResult r).answers = s.answers := rfl
@[simp] theorem State.withResult_draws : (s.withResult r).draws = s.draws := rfl

@[simp] theorem State.withBuf_cfg : (s.withBuf b).cfg = s.cfg := rfl
@[simp] theorem State.withBuf_img : (s.withBuf b).img = s.img := rfl
@[simp] theorem State.withBuf_buf : (s.withBuf b).buf = b := rfl
@[simp] theorem State.withBuf_persisted : (s.withBuf b).persisted = s.persisted := rfl
@[simp] theorem State.withBuf_result : (s.withBuf b).result = .nothing := rfl
@[simp] theorem State.withBuf_pending : (s.withBuf b).pending = s.pending := rfl
@[simp] theorem State.withBuf_answers : (s.withBuf b).answers = s.answers := rfl
@[simp] theorem State.withBuf_draws : (s.withBuf b).draws = s.draws := rfl

@[simp] theorem State.accept_cfg : (s.accept rest).cfg = s.cfg := rfl
@[simp] theorem State.accept_img : (s.accept rest).img = s.img := rfl
@[simp] theorem State.accept_buf : (s.accept rest).buf = s.buf := rfl
@[simp] theorem State.accept_persisted : (s.accept rest).persisted = s.persisted := rfl
@[simp] theorem State.accept_result : (s.accept rest).result = s.result := rfl
@[simp] theorem State.accept_pending : (s.accept rest).pending = rest := rfl
@[simp] theorem State.accept_answers : (s.accept rest).answers = s.answers := rfl
@[simp] theorem State.accept_draws : (s.accept rest).draws = s.draws := rfl

end

/-- `requireConfig` goes on exactly under a well-formed configuration. -/
theorem requireConfig_pos {s : State} (h : s.cfg.WellFormed) (k : Host.Outcome State Fault Refusal) :
    requireConfig s k = k := if_pos h

theorem requireConfig_neg {s : State} (h : ¬ s.cfg.WellFormed) (k : Host.Outcome State Fault Refusal) :
    requireConfig s k = .refused .illFormedConfiguration := if_neg h

/-- A next state behind `requireConfig` is the next state of what it guards, under a well-formed configuration. -/
theorem requireConfig_eq_next {s t : State} {k : Host.Outcome State Fault Refusal}
    (h : requireConfig s k = .next t) : s.cfg.WellFormed ∧ k = .next t := by
  unfold requireConfig at h
  split at h
  · exact ⟨‹_›, h⟩
  · cases h

theorem requireLed_pos {s : State} {led : Nat} (h : led < s.cfg.ledsPerStrip)
    (k : Host.Outcome State Fault Refusal) : requireLed s led k = k := if_pos h

theorem requireLed_eq_next {s t : State} {led : Nat} {k : Host.Outcome State Fault Refusal}
    (h : requireLed s led k = .next t) : led < s.cfg.ledsPerStrip ∧ k = .next t := by
  unfold requireLed at h
  split at h
  · exact ⟨‹_›, h⟩
  · cases h

theorem requireChannel_pos {c : BitVec 2} (h : c ≠ 3) (k : Host.Outcome State Fault Refusal) :
    requireChannel c k = k := if_neg h

theorem requireChannel_eq_next {c : BitVec 2} {t : State} {k : Host.Outcome State Fault Refusal}
    (h : requireChannel c k = .next t) : c ≠ 3 ∧ k = .next t := by
  unfold requireChannel at h
  split at h
  · cases h
  · exact ⟨‹_›, h⟩

end Sys2Proof.Machine
end

