-- ==== Sys2Proof/Laws/Sequencer.lean ====
section
/-! SUPPORT. What ZEROBUF's loop, one encode, one PERSIST and RUN's loop can do. -/

namespace Sys2Proof.Machine

theorem zeroLoop_read (n : Nat) (b : Memory) (a : Nat) :
    ((List.range n).foldl (fun b n => b.write n 0) b).read a = if a < n then 0 else b.read a := by
  induction n with
  | zero => simp
  | succ n ih =>
    rw [List.range_succ, List.foldl_append, List.foldl_cons, List.foldl_nil, Memory.read_write, ih]
    by_cases h : a = n
    · rw [if_pos h, if_pos (by omega)]
    · rw [if_neg h]
      by_cases h' : a < n
      · rw [if_pos h', if_pos (by omega)]
      · rw [if_neg h', if_neg (by omega)]

/-- ZEROBUF's loop zeroes the buffer and nothing else (R181). -/
theorem zeroBytes_read (c : Config) (b : Memory) (a : Nat) :
    (zeroBytes c b).read a = if a < c.bufLen then 0 else b.read a := zeroLoop_read _ _ _

theorem zeroBytes_fits {c : Config} {b : Memory} (h : Fits c.bufLen b) : Fits c.bufLen (zeroBytes c b) :=
  foldl_keeps h fun _ _ hn hb => hb.write (List.mem_range.mp hn) _

/-- The collaborator's answer moves on the answers or the counter, and nothing else. -/
theorem drawAnswer_cases (s : State) :
    (∃ a rest, s.answers = a :: rest ∧ drawAnswer s = ({ s with answers := rest }, a)) ∨
    (s.answers = [] ∧ drawAnswer s = ({ s with draws := s.draws + 1 }, Config.freeAnswer s.draws)) := by
  unfold drawAnswer
  cases h : s.answers with
  | nil => exact .inr ⟨rfl, rfl⟩
  | cons a rest => exact .inl ⟨a, rest, rfl, rfl⟩

/-- PERSIST answers what the collaborator answers; on ok a copy of the buffer is appended, on fail nothing is (R182). -/
theorem persistBuf_cases (s : State) :
    ((drawAnswer s).2 = .ok ∧
      persistBuf s = ({ (drawAnswer s).1 with persisted := s.persisted ++ [bufCopy s] }, .ok)) ∨
    ((drawAnswer s).2 = .fail ∧ persistBuf s = ((drawAnswer s).1, .fail)) := by
  unfold persistBuf
  rcases drawAnswer_cases s with ⟨a, rest, _, h⟩ | ⟨_, h⟩
  · cases a <;> simp [h]
  · cases hf : Config.freeAnswer s.draws <;> simp [h, hf]

/-- PERSIST leaves the configuration, both memories, the requests and the result. -/
theorem persistBuf_keeps (s : State) :
    (persistBuf s).1.cfg = s.cfg ∧ (persistBuf s).1.img = s.img ∧ (persistBuf s).1.buf = s.buf ∧
    (persistBuf s).1.pending = s.pending ∧ (persistBuf s).1.result = s.result := by
  rcases drawAnswer_cases s with ⟨a, rest, _, h⟩ | ⟨_, h⟩ <;>
  rcases persistBuf_cases s with ⟨-, e⟩ | ⟨-, e⟩ <;> simp [e, h]

/-- What PERSIST does to `PERSISTED`, by its answer (R182). -/
theorem persistBuf_persisted (s : State) :
    ((persistBuf s).2 = .ok ∧ (persistBuf s).1.persisted = s.persisted ++ [bufCopy s]) ∨
    ((persistBuf s).2 = .fail ∧ (persistBuf s).1.persisted = s.persisted) := by
  rcases drawAnswer_cases s with ⟨a, rest, _, h⟩ | ⟨_, h⟩ <;>
  rcases persistBuf_cases s with ⟨-, e⟩ | ⟨-, e⟩ <;> simp [e, h]

/-- ENCODE either has both references and ORs into the buffer, or fails and changes nothing (R163, R164, R201). -/
theorem encodePattern_cases (p : Nat) (image buffer : Bool) (s : State) :
    (image = true ∧ buffer = true ∧
      encodePattern p image buffer s = ({ s with buf := encodeLeds s.cfg s.img p s.buf }, .ok)) ∨
    ((image = false ∨ buffer = false) ∧ encodePattern p image buffer s = (s, .invalidArgument)) := by
  cases image <;> cases buffer <;> simp [encodePattern, referencesPresent, raiseInvalidArgument]

/-- One iteration of RUN: it fails at ENCODE, fails at PERSIST, or goes on (R185). -/
theorem runFrom_cons (image : Bool) (absent : Option Nat) (p : Nat) (rest : List Nat) (s : State) :
    (image = false ∨ absent = some p) ∧
      runFrom image absent (p :: rest) s = (zeroIfPresent (absent != some p) s, .failure) ∨
    (image = true ∧ absent ≠ some p ∧
      ∃ t, t = { s with buf := encodeLeds s.cfg s.img p (zeroBytes s.cfg s.buf) } ∧
        ((persistBuf t).2 = .fail ∧ runFrom image absent (p :: rest) s = ((persistBuf t).1, .failure) ∨
         (persistBuf t).2 = .ok ∧
          runFrom image absent (p :: rest) s = runFrom image absent rest (persistBuf t).1)) := by
  simp only [runFrom]
  by_cases ha : absent = some p
  · left
    refine ⟨.inr ha, ?_⟩
    cases image <;> simp [ha, encodePattern, referencesPresent, raiseInvalidArgument]
  · cases image with
    | false =>
      left
      exact ⟨.inl rfl, by simp [encodePattern, referencesPresent, raiseInvalidArgument]⟩
    | true =>
      right
      have hb : (absent != some p) = true := by simpa using ha
      refine ⟨rfl, ha, _, rfl, ?_⟩
      rw [hb]
      simp only [zeroIfPresent, if_true, encodePattern, referencesPresent, Bool.and_self]
      rcases persistBuf_cases
        { s with buf := encodeLeds s.cfg s.img p (zeroBytes s.cfg s.buf) } with ⟨-, e⟩ | ⟨-, e⟩ <;> simp [e]

/-- The copy RUN persists of a pattern is R165's buffer, whatever the buffer held before (R188). -/
theorem bufCopy_of_encoded (s : State) (p : Nat) :
    bufCopy { s with buf := encodeLeds s.cfg s.img p (zeroBytes s.cfg s.buf) } = closedBuffer s.cfg s.img p := by
  refine List.map_congr_left fun a ha => ?_
  have ha : a < s.cfg.bufLen := List.mem_range.mp ha
  simp [encodeLeds_read, zeroBytes_read, ha]

/-- RUN's loop leaves the configuration, the image, the requests and the result. -/
theorem runFrom_keeps (image : Bool) (absent : Option Nat) (ps : List Nat) (s : State) :
    (runFrom image absent ps s).1.cfg = s.cfg ∧ (runFrom image absent ps s).1.img = s.img ∧
    (runFrom image absent ps s).1.pending = s.pending ∧ (runFrom image absent ps s).1.result = s.result := by
  induction ps generalizing s with
  | nil => simp [runFrom]
  | cons p rest ih =>
    rcases runFrom_cons image absent p rest s with ⟨-, e⟩ | ⟨-, -, t, ht, ⟨-, e⟩ | ⟨-, e⟩⟩
    · cases hb : (absent != some p) <;> simp [e, zeroIfPresent, hb]
    · obtain ⟨h1, h2, -, h4, h5⟩ := persistBuf_keeps t
      rw [e]
      subst ht
      exact ⟨h1, h2, h4, h5⟩
    · obtain ⟨h1, h2, -, h4, h5⟩ := persistBuf_keeps t
      obtain ⟨k1, k2, k4, k5⟩ := ih (persistBuf t).1
      rw [e]
      subst ht
      exact ⟨k1.trans h1, k2.trans h2, k4.trans h4, k5.trans h5⟩

end Sys2Proof.Machine
end

