-- ==== Sys2Proof/Laws/Step.lean ====
section
/-! SUPPORT. What one operation and one step can do, said once. -/

namespace Sys2Proof.Machine

/-- What an operation can do when it answers a next state: hand back a result only; change `BUF` only, keeping it
canonical and inside; or be ENCODE, PERSIST or RUN. -/
theorem exec_cases {i : Instr} {s t : State} (h : exec i s = .next t) :
    (∃ r, t = s.withResult r ∧ r ≠ .encStatus .invalidArgument) ∨
    (∃ b, t = s.withBuf b ∧ (Fits s.cfg.bufLen s.buf → Fits s.cfg.bufLen b)) ∨
    (∃ p image buffer, i = .encode p image buffer ∧
      t = (encodePattern p image buffer s).1.withResult (.encStatus (encodePattern p image buffer s).2)) ∨
    (i = .persist ∧ t = (persistBuf s).1.withResult (.answer (persistBuf s).2)) ∨
    (∃ image absent, i = .run image absent ∧
      t = (runPatterns image absent s).1.withResult (.runStatus (runPatterns image absent s).2)) := by
  cases i with
  | unpackR px => exact .inl ⟨_, (Host.Outcome.next.inj h).symm, nofun⟩
  | unpackG px => exact .inl ⟨_, (Host.Outcome.next.inj h).symm, nofun⟩
  | unpackB px => exact .inl ⟨_, (Host.Outcome.next.inj h).symm, nofun⟩
  | rescale3 f => exact .inl ⟨_, (Host.Outcome.next.inj h).symm, nofun⟩
  | rescale2 f => exact .inl ⟨_, (Host.Outcome.next.inj h).symm, nofun⟩
  | expand px => exact .inl ⟨_, (Host.Outcome.next.inj h).symm, nofun⟩
  | resolveTl p l => exact .inl ⟨_, (Host.Outcome.next.inj (requireConfig_eq_next h).2).symm, nofun⟩
  | resolveBl p l => exact .inl ⟨_, (Host.Outcome.next.inj (requireConfig_eq_next h).2).symm, nofun⟩
  | resolveTr p l => exact .inl ⟨_, (Host.Outcome.next.inj (requireConfig_eq_next h).2).symm, nofun⟩
  | resolveBr p l => exact .inl ⟨_, (Host.Outcome.next.inj (requireConfig_eq_next h).2).symm, nofun⟩
  | getcolor p l q => exact .inl ⟨_, (Host.Outcome.next.inj (requireConfig_eq_next h).2).symm, nofun⟩
  | reorder r g b => exact .inl ⟨_, (Host.Outcome.next.inj h).symm, nofun⟩
  | muxbit l c i w =>
    obtain ⟨hc, h⟩ := requireChannel_eq_next h
    obtain ⟨hl, h⟩ := requireLed_eq_next (requireConfig_eq_next h).2
    have : c.toNat < 3 := by
      have := c.isLt
      have : c.toNat ≠ 3 := fun e => hc (BitVec.eq_of_toNat_eq (by simpa using e))
      omega
    exact .inr (.inl ⟨_, (Host.Outcome.next.inj h).symm, fun hb => muxBit_fits hb hl this i.isLt⟩)
  | serchan l c w =>
    obtain ⟨hc, h⟩ := requireChannel_eq_next h
    obtain ⟨hl, h⟩ := requireLed_eq_next (requireConfig_eq_next h).2
    have : c.toNat < 3 := by
      have := c.isLt
      have : c.toNat ≠ 3 := fun e => hc (BitVec.eq_of_toNat_eq (by simpa using e))
      omega
    exact .inr (.inl ⟨_, (Host.Outcome.next.inj h).symm, fun hb => serChan_fits hb hl this⟩)
  | encled p l =>
    obtain ⟨hl, h⟩ := requireLed_eq_next (requireConfig_eq_next h).2
    exact .inr (.inl ⟨_, (Host.Outcome.next.inj h).symm, fun hb => encLed_fits hb hl⟩)
  | encode p m b =>
    exact .inr (.inr (.inl ⟨p, m, b, rfl, (Host.Outcome.next.inj (requireConfig_eq_next h).2).symm⟩))
  | zerobuf =>
    exact .inr (.inl ⟨_, (Host.Outcome.next.inj (requireConfig_eq_next h).2).symm, zeroBytes_fits⟩)
  | persist => exact .inr (.inr (.inr (.inl ⟨rfl, (Host.Outcome.next.inj (requireConfig_eq_next h).2).symm⟩)))
  | transmit => cases h
  | run m a =>
    exact .inr (.inr (.inr (.inr ⟨m, a, rfl, (Host.Outcome.next.inj (requireConfig_eq_next h).2).symm⟩)))

/-- What a step can do when it answers a next state. -/
theorem step_cases {s t : State} (h : step s = .next t) :
    (s.pending = [] ∧ t = s) ∨
    (∃ call rest i, s.pending = .invoke call :: rest ∧ decode call = .ok i ∧ exec i (s.accept rest) = .next t) ∨
    (∃ n v rest, s.pending = .writeImg n v :: rest ∧ n < s.cfg.imgLen ∧
      t = { s.accept rest with img := s.img.write n v }) ∨
    (∃ n v rest, s.pending = .writeBuf n v :: rest ∧ n < s.cfg.bufLen ∧
      t = { s.accept rest with buf := s.buf.write n v }) := by
  unfold step at h
  split at h
  · exact .inl ⟨‹_›, (Host.Outcome.next.inj h).symm⟩
  · split at h
    · exact .inr (.inl ⟨_, _, _, ‹_›, ‹_›, h⟩)
    · cases h
  · have h := (requireConfig_eq_next h).2
    split at h
    · exact .inr (.inr (.inl ⟨_, _, _, ‹_›, ‹_›, (Host.Outcome.next.inj h).symm⟩))
    · cases h
  · have h := (requireConfig_eq_next h).2
    split at h
    · exact .inr (.inr (.inr ⟨_, _, _, ‹_›, ‹_›, (Host.Outcome.next.inj h).symm⟩))
    · cases h

end Sys2Proof.Machine
end

