-- ==== Sys2Proof/Laws/Exec.lean ====
section
/-! SUPPORT. Each operation under a well-formed configuration, as an equation, and the facts about coordinates and lanes
that its configuration gives. Cite these instead of unfolding exec: unfolding the encoder's loops in the kernel is
slow. -/

namespace Sys2Proof.Machine

section
variable {s : State} (h : s.cfg.WellFormed)
include h

theorem exec_resolveOf (q : Quadrant) (p l : Nat) :
    exec (resolveOf q p l) s = .next (s.withResult (.coord (resolve s.cfg q p l))) := by
  cases q <;> exact requireConfig_pos h _

theorem exec_getcolor (p l : Nat) (q : Quadrant) :
    exec (.getcolor p l q) s = .next (s.withResult (.color (getColor s.cfg s.img p l q))) := requireConfig_pos h _

theorem exec_muxbit {led : Nat} {c : BitVec 2} (hl : led < s.cfg.ledsPerStrip) (hc : c ≠ 3) (i : BitVec 3)
    (w : StripBytes) :
    exec (.muxbit led c i w) s = .next (s.withBuf (muxBit s.cfg w.get led c.toNat i.toNat s.buf)) := by
  show requireChannel _ _ = _
  rw [requireChannel_pos hc, requireConfig_pos h, requireLed_pos hl]

theorem exec_serchan {led : Nat} {c : BitVec 2} (hl : led < s.cfg.ledsPerStrip) (hc : c ≠ 3) (w : StripBytes) :
    exec (.serchan led c w) s = .next (s.withBuf (serChan s.cfg w.get led c.toNat s.buf)) := by
  show requireChannel _ _ = _
  rw [requireChannel_pos hc, requireConfig_pos h, requireLed_pos hl]

theorem exec_encled {led : Nat} (hl : led < s.cfg.ledsPerStrip) (p : Nat) :
    exec (.encled p led) s = .next (s.withBuf (encLed s.cfg s.img p led s.buf)) := by
  show requireConfig _ _ = _
  rw [requireConfig_pos h, requireLed_pos hl]

theorem exec_encode (p : Nat) (image buffer : Bool) :
    exec (.encode p image buffer) s =
      .next ((encodePattern p image buffer s).1.withResult (.encStatus (encodePattern p image buffer s).2)) :=
  requireConfig_pos h _

theorem exec_zerobuf : exec .zerobuf s = .next (s.withBuf (zeroBytes s.cfg s.buf)) := requireConfig_pos h _

theorem exec_persist : exec .persist s = .next ((persistBuf s).1.withResult (.answer (persistBuf s).2)) :=
  requireConfig_pos h _

theorem exec_run (image : Bool) (absent : Option Nat) :
    exec (.run image absent) s =
      .next ((runPatterns image absent s).1.withResult (.runStatus (runPatterns image absent s).2)) :=
  requireConfig_pos h _

end

/-- R131, out of range. -/
theorem resolve_of_absent {c : Config} {p l : Nat} (h : isAbsent c p l) (q : Quadrant) : resolve c q p l = none := by
  cases q <;> exact if_pos h

/-- R132, in range. -/
theorem resolve_of_present {c : Config} {p l : Nat} (h : ¬ isAbsent c p l) (q : Quadrant) :
    resolve c q p l = some (match q with
      | .tl => ⟨topRow c l, p⟩
      | .bl => ⟨bottomRow c l, p⟩
      | .tr => ⟨topRow c l, rightCol c p⟩
      | .br => ⟨bottomRow c l, rightCol c p⟩) := by
  cases q <;> exact if_neg h

/-- R137: both subtractions of a top row are of a smaller from a larger number. -/
theorem topRow_add {c : Config} (h : c.WellFormed) {l : Nat} (hl : l < c.ledsPerStrip) :
    topRow c l + l + 1 = c.imgRows / 2 := by
  have := h.2.2.2.2.1
  unfold topRow
  omega

/-- A bit of R159's byte. -/
theorem closedPair_getLsbD (c : Config) (wire : Nat → Byte) (j p : Nat) :
    (closedPair c wire j).getLsbD p = true ↔
      ∃ k < c.numStrips, (c.laneMap 0 k = p ∧ (wire k).getLsbD (7 - 2 * j) = true) ∨
        (c.laneMap 1 k = p ∧ (wire k).getLsbD (6 - 2 * j) = true) := by
  rw [← muxByte_pair, BitVec.getLsbD_or, muxByte_getLsbD, muxByte_getLsbD, Bool.or_eq_true, decide_eq_true_eq,
    decide_eq_true_eq, show (2 * j) % 2 = 0 by omega, show (2 * j + 1) % 2 = 1 by omega,
    show 7 - (2 * j + 1) = 6 - 2 * j by omega]
  constructor
  · rintro (⟨k, hk, a⟩ | ⟨k, hk, a⟩)
    · exact ⟨k, hk, .inl a⟩
    · exact ⟨k, hk, .inr a⟩
  · rintro ⟨k, hk, a | a⟩
    · exact .inl ⟨k, hk, a⟩
    · exact .inr ⟨k, hk, a⟩

/-- R9's sixth condition: `LANE_MAP` is injective. -/
theorem laneMap_inj {c : Config} (h : c.WellFormed) {s s' k k' : Nat} (hs : s < 2) (hs' : s' < 2)
    (hk : k < c.numStrips) (hk' : k' < c.numStrips) (e : c.laneMap s k = c.laneMap s' k') : s = s' ∧ k = k' := by
  obtain ⟨-, -, -, -, -, -, l1, l2, nd⟩ := h
  have place : ∀ s < 2, ∀ k < c.numStrips,
      ∃ hh : (if s = 0 then k else c.numStrips + k) < (c.laneFirst ++ c.laneSecond).length,
        c.laneMap s k = ((c.laneFirst ++ c.laneSecond)[if s = 0 then k else c.numStrips + k]).val := by
    intro s hs k hk
    refine ⟨by rw [List.length_append]; split <;> omega, ?_⟩
    unfold Config.laneMap
    by_cases h0 : s = 0
    · simp only [h0, if_true]
      rw [List.getElem_append_left (by omega), List.getD_eq_getElem _ _ (by omega)]
    · simp only [h0, if_false]
      rw [List.getElem_append_right (by omega), List.getD_eq_getElem _ _ (by omega)]
      simp [l1]
  obtain ⟨b1, e1⟩ := place s hs k hk
  obtain ⟨b2, e2⟩ := place s' hs' k' hk'
  have := (nd.getElem_inj_iff (hi := b1) (hj := b2)).mp (Fin.ext (by rw [← e1, ← e2, e]))
  split at this <;> split at this <;> omega

theorem serChan_congr {c : Config} {wire wire' : Nat → Byte} (h : ∀ k < c.numStrips, wire k = wire' k) (led ch : Nat)
    (b : Memory) : serChan c wire led ch b = serChan c wire' led ch b := by
  unfold serChan muxBit
  simp only [muxByte_congr h]

theorem stripBytes_get_ofFn (f : Nat → Byte) {k : Nat} (hk : k < 4) : (StripBytes.ofFn f).get k = f k := by
  interval_cases k <;> rfl

end Sys2Proof.Machine
end

