-- ==== Sys2Proof/Laws/PerInstr.lean ====
section
/-! SUPPORT. The family TableRow: an operation's encoded word lies in its row of opcode_table.json. -/

namespace Sys2Proof.Laws.TableRow

/-- Under the row's mask the encoded word is the row's value. -/
def Statement (i : Instr) : Prop := (encode i).word &&& (tableRow i).mask = (tableRow i).value

theorem resolveTl (p l : Nat) : Statement (.resolveTl p l) := by
  show (6#5 ++ 0#2 ++ 0#25 : TableWord) &&& 0xFFFFFFFF#32 = 0x30000000#32
  decide

theorem resolveBl (p l : Nat) : Statement (.resolveBl p l) := by
  show (6#5 ++ 1#2 ++ 0#25 : TableWord) &&& 0xFFFFFFFF#32 = 0x32000000#32
  decide

theorem resolveTr (p l : Nat) : Statement (.resolveTr p l) := by
  show (6#5 ++ 2#2 ++ 0#25 : TableWord) &&& 0xFFFFFFFF#32 = 0x34000000#32
  decide

theorem resolveBr (p l : Nat) : Statement (.resolveBr p l) := by
  show (6#5 ++ 3#2 ++ 0#25 : TableWord) &&& 0xFFFFFFFF#32 = 0x36000000#32
  decide

theorem encled (p l : Nat) : Statement (.encled p l) := by
  show (11#5 ++ 0#27 : TableWord) &&& 0xFFFFFFFF#32 = 0x58000000#32
  decide

theorem zerobuf : Statement .zerobuf := by unfold Statement; rfl
theorem persist : Statement .persist := by unfold Statement; rfl
theorem transmit : Statement .transmit := by unfold Statement; rfl

/-- The row of an operation whose operand is a byte followed by 19 padding bits. -/
theorem byteRow (op : BitVec 5) (px : Byte) :
    (op ++ px ++ 0#19 : TableWord) &&& 0xF807FFFF#32 = (op ++ 0#8 ++ 0#19 : TableWord) := by
  apply BitVec.eq_of_getLsbD_eq
  intro n hn
  simp only [BitVec.getLsbD_and, BitVec.getLsbD_append]
  interval_cases n <;> simp

theorem unpackR (px : Byte) : Statement (.unpackR px) := byteRow 0 px
theorem unpackG (px : Byte) : Statement (.unpackG px) := byteRow 1 px
theorem unpackB (px : Byte) : Statement (.unpackB px) := byteRow 2 px
theorem expand (px : Byte) : Statement (.expand px) := byteRow 5 px

theorem rescale3 (f : BitVec 3) : Statement (.rescale3 f) := by
  unfold Statement
  revert f
  decide

theorem rescale2 (f : BitVec 2) : Statement (.rescale2 f) := by
  unfold Statement
  revert f
  decide

theorem getcolor (p l : Nat) (q : Quadrant) : Statement (.getcolor p l q) := by
  show (7#5 ++ quadrantBits q ++ 0#25 : TableWord) &&& 0xF9FFFFFF#32 = 0x38000000#32
  cases q <;> decide

theorem reorder (r g b : Byte) : Statement (.reorder r g b) := by
  show (8#5 ++ r ++ g ++ b ++ 0#3 : TableWord) &&& 0xF8000007#32 = 0x40000000#32
  apply BitVec.eq_of_getLsbD_eq
  intro n hn
  simp only [BitVec.getLsbD_and, BitVec.getLsbD_append]
  interval_cases n <;> simp

theorem muxbit (l : Nat) (c : BitVec 2) (i : BitVec 3) (w : StripBytes) : Statement (.muxbit l c i w) := by
  show (9#5 ++ c ++ i ++ 0#22 : TableWord) &&& 0xF83FFFFF#32 = 0x48000000#32
  revert c i
  decide

theorem serchan (l : Nat) (c : BitVec 2) (w : StripBytes) : Statement (.serchan l c w) := by
  show (10#5 ++ c ++ 0#25 : TableWord) &&& 0xF9FFFFFF#32 = 0x50000000#32
  revert c
  decide

theorem encode (p : Nat) (m b : Bool) : Statement (.encode p m b) := by
  show (12#5 ++ BitVec.ofBool m ++ BitVec.ofBool b ++ 0#25 : TableWord) &&& 0xF9FFFFFF#32 = 0x60000000#32
  revert m b
  decide

theorem run (m : Bool) (a : Option Nat) : Statement (.run m a) := by
  show (16#5 ++ BitVec.ofBool m ++ 0#26 : TableWord) &&& 0xFBFFFFFF#32 = 0x80000000#32
  revert m
  decide

end Sys2Proof.Laws.TableRow
end

