-- ==== Sys2Proof/Tests/Slice0.lean ====
section
/-! SUPPORT. Tests of the model. Words are written out from 30_encoding.md R92 and R93, expected results are those of
spec/95_test_vectors.md, cited by their vector numbers. A `witness_…` theorem shows a state and operands that meet the
hypotheses of the obligation of that name, one conjunct for each of its clauses. -/

namespace Sys2Proof.Tests

open Sys2Proof Sys2Proof.Machine

-- One declaration after another: the many small kernel evaluations below would otherwise each take a thread.
set_option Elab.async false

/-- A memory that holds these bytes from index 0. -/
def listed (bs : List Byte) : Memory := ((List.range bs.length).zip bs).filter fun c => c.2 != unwritten

/-- V10's configuration. -/
def cfg10 : Config := Config.withDefaultLanes 4 4 2 4 [.tl, .bl, .tr, .br]

/-- V10's image. -/
def img10 : Memory :=
  listed ([0xE0, 0x1C, 0x03, 0xFF, 0x92, 0x49, 0x24, 0xB6] ++ [0x6D, 0xDB, 0x00, 0x55, 0xAA, 0x0F, 0xF0, 0x81])

/-- A state with this configuration, V10's image and a zeroed buffer. -/
def start (c : Config) : State :=
  { State.reset with cfg := c, img := img10, buf := listed (List.replicate c.bufLen 0) }

/-- V10. -/
def s10 : State := start cfg10

/-- V10's image, one strip. -/
def s1 : State := start (Config.withDefaultLanes 4 4 2 4 [.tl])

/-- P4's configuration. -/
def s3 : State := start (Config.withDefaultLanes 4 4 2 3 [.tl, .bl, .tr, .br])

/-- V17's row ENCODE 0. -/
def row0 : List Byte :=
  [0x12, 0x60, 0, 0, 0x12, 0x60, 0, 0, 0x12, 0, 0, 0] ++ [0x82, 0, 0, 0, 0xB9, 0xB0, 0, 0, 0x64, 0, 0, 0]

/-- V17's row ENCODE 1. -/
def row1 : List Byte :=
  [0xE3, 0xC0, 0, 0, 0x6B, 0x40, 0, 0, 0x6B, 0, 0, 0] ++ [0x57, 0x70, 0, 0, 0xC4, 0x40, 0, 0, 0x6E, 0, 0, 0]

/-- The next state, if there is one. -/
def nextOf : Host.Outcome State Fault Refusal → Option State
  | .next s => some s
  | _ => none

/-- The result handed back. -/
def resultOf (o : Host.Outcome State Fault Refusal) : Option Result := (nextOf o).map State.result

/-- The whole buffer. -/
def bufOf (o : Host.Outcome State Fault Refusal) : Option (List Byte) := (nextOf o).map bufCopy

/-- The list of persisted buffers. -/
def persistedOf (o : Host.Outcome State Fault Refusal) : Option (List (List Byte)) := (nextOf o).map State.persisted

/-- What the decoder answers to a table word with nothing beside it. -/
def read (w : TableWord) : Except DecodeError Instr := decode (Call.ofWord w)

/-! ## Ill-formed terms are refused -/

theorem test_wf_muxbit_channel3 : (Instr.muxbit 0 3 0 StripBytes.zero).wellFormed = false := by decide
theorem test_wf_serchan_channel3 : (Instr.serchan 0 3 StripBytes.zero).wellFormed = false := by decide
theorem test_wf_channel2 : (Instr.serchan 0 2 StripBytes.zero).wellFormed = true := by decide
theorem test_cfg10_wf : cfg10.WellFormed := by decide
theorem test_cfg_odd_rows : ¬ { cfg10 with imgRows := 5 }.WellFormed := by decide
theorem test_cfg_odd_cols : ¬ { cfg10 with imgCols := 5 }.WellFormed := by decide
theorem test_cfg_five_strips :
    ¬ { cfg10 with numStrips := 5, stripAssignment := [.tl, .bl, .tr, .br, .tl] }.WellFormed := by decide
theorem test_cfg_short_assignment : ¬ { cfg10 with stripAssignment := [.tl, .bl, .tr] }.WellFormed := by decide
theorem test_cfg_too_many_leds : ¬ { cfg10 with ledsPerStrip := 3 }.WellFormed := by decide
theorem test_cfg_too_many_patterns : ¬ { cfg10 with bitmatrixPatterns := 5 }.WellFormed := by decide
theorem test_cfg_short_first_lanes : ¬ { cfg10 with laneFirst := [4, 5, 6] }.WellFormed := by decide
theorem test_cfg_short_second_lanes : ¬ { cfg10 with laneSecond := [0, 1, 2] }.WellFormed := by decide
theorem test_cfg_lanes_clash : ¬ { cfg10 with laneFirst := [4, 5, 6, 3] }.WellFormed := by decide

/-! ## Decoding, a word for every row of the table -/

theorem test_word_unpackR : read 0b00000101101100000000000000000000 = .ok (.unpackR 0xB6) := by rfl
theorem test_word_unpackG : read 0b00001101101100000000000000000000 = .ok (.unpackG 0xB6) := by rfl
theorem test_word_unpackB : read 0b00010101101100000000000000000000 = .ok (.unpackB 0xB6) := by rfl
theorem test_word_rescale3 : read 0b00011101000000000000000000000000 = .ok (.rescale3 5) := by rfl
theorem test_word_rescale2 : read 0b00100100000000000000000000000000 = .ok (.rescale2 2) := by rfl
theorem test_word_expand : read 0b00101101101100000000000000000000 = .ok (.expand 0xB6) := by rfl
theorem test_word_resolveTl : read 0b00110000000000000000000000000000 = .ok (.resolveTl 0 0) := by rfl
theorem test_word_resolveBl : read 0b00110010000000000000000000000000 = .ok (.resolveBl 0 0) := by rfl
theorem test_word_resolveTr : decode ⟨0b00110100000000000000000000000000, 2, 1, StripBytes.zero, none⟩ =
    .ok (.resolveTr 2 1) := by rfl
theorem test_word_resolveBr : read 0b00110110000000000000000000000000 = .ok (.resolveBr 0 0) := by rfl
theorem test_word_getcolor : decode ⟨0b00111100000000000000000000000000, 2, 1, StripBytes.zero, none⟩ =
    .ok (.getcolor 2 1 .tr) := by rfl
theorem test_word_reorder : read 0b01000101000000100000010000000000 = .ok (.reorder 160 64 128) := by rfl
theorem test_word_muxbit : decode ⟨0b01001011010000000000000000000000, 9, 1, ⟨1, 2, 3, 4⟩, none⟩ =
    .ok (.muxbit 1 1 5 ⟨1, 2, 3, 4⟩) := by rfl
theorem test_word_serchan : decode ⟨0b01010100000000000000000000000000, 9, 1, ⟨1, 2, 3, 4⟩, none⟩ =
    .ok (.serchan 1 2 ⟨1, 2, 3, 4⟩) := by rfl
theorem test_word_encled : decode ⟨0b01011000000000000000000000000000, 3, 1, StripBytes.zero, none⟩ =
    .ok (.encled 3 1) := by rfl
theorem test_word_encode : decode ⟨0b01100100000000000000000000000000, 3, 1, StripBytes.zero, none⟩ =
    .ok (.encode 3 true false) := by rfl
theorem test_word_zerobuf : read 0b01101000000000000000000000000000 = .ok .zerobuf := by rfl
theorem test_word_persist : read 0b01110000000000000000000000000000 = .ok .persist := by rfl
theorem test_word_transmit : read 0b01111000000000000000000000000000 = .ok .transmit := by rfl
theorem test_word_run : decode ⟨0b10000100000000000000000000000000, 0, 0, StripBytes.zero, some 1⟩ =
    .ok (.run true (some 1)) := by rfl
theorem test_word_op17 : read 0b10001000000000000000000000000000 = .error .reservedOpId := by rfl
theorem test_word_op31 : read 0b11111000000000000000000000000000 = .error .reservedOpId := by rfl
theorem test_word_muxbit_channel3 : read 0b01001110000000000000000000000000 = .error .channelThree := by rfl
theorem test_word_serchan_channel3 : read 0b01010110000000000000000000000000 = .error .channelThree := by rfl
theorem test_word_padding : read 0b01101000000000000000000000000001 = .error .paddingNotZero := by rfl
theorem test_tableWord_too_long : decodeTableWord 33 0 = none ∧ decodeTableWord 32 (2 ^ 32) = none := by decide

/-! ## The operations -/

/-- V11. -/
theorem test_unpackR : resultOf (exec (.unpackR 0xB6) s10) = some (.field3 5) ∧
    resultOf (exec (.unpackR 0x1F) s10) = some (.field3 0) := by decide
theorem test_unpackG : resultOf (exec (.unpackG 0xB6) s10) = some (.field3 5) ∧
    resultOf (exec (.unpackG 0xE3) s10) = some (.field3 0) := by decide
theorem test_unpackB : resultOf (exec (.unpackB 0xB6) s10) = some (.field2 2) ∧
    resultOf (exec (.unpackB 0xFC) s10) = some (.field2 0) := by decide
theorem test_rescale3 : resultOf (exec (.rescale3 7) s10) = some (.channel 224) ∧
    resultOf (exec (.rescale3 5) s10) = some (.channel 160) := by decide
theorem test_rescale2 : resultOf (exec (.rescale2 3) s10) = some (.channel 192) ∧
    resultOf (exec (.rescale2 1) s10) = some (.channel 64) := by decide
theorem test_expand : resultOf (exec (.expand 0xAA) s10) = some (.color ⟨160, 64, 128⟩) ∧
    resultOf (exec (.expand 0xFF) s10) = some (.color ⟨224, 224, 192⟩) := by decide

/-- V12. -/
theorem test_resolveTl : resultOf (exec (.resolveTl 3 1) s10) = some (.coord (some ⟨0, 3⟩)) ∧
    resultOf (exec (.resolveTl 4 0) s10) = some (.coord none) := by decide
theorem test_resolveBl : resultOf (exec (.resolveBl 3 1) s10) = some (.coord (some ⟨3, 3⟩)) ∧
    resultOf (exec (.resolveBl 0 2) s10) = some (.coord none) := by decide
theorem test_resolveTr : resultOf (exec (.resolveTr 2 1) s10) = some (.coord (some ⟨0, 0⟩)) ∧
    resultOf (exec (.resolveTr 1 0) s10) = some (.coord (some ⟨1, 3⟩)) := by decide
theorem test_resolveBr : resultOf (exec (.resolveBr 3 0) s10) = some (.coord (some ⟨2, 1⟩)) ∧
    resultOf (exec (.resolveBr 0 1) s10) = some (.coord (some ⟨3, 2⟩)) := by decide

/-- P3, steps 3 and 4. -/
theorem test_getcolor : resultOf (exec (.getcolor 2 1 .tr) s10) = some (.color ⟨224, 0, 0⟩) ∧
    resultOf (exec (.getcolor 2 2 .tr) s10) = some (.color ⟨0, 0, 0⟩) := by decide

/-- V15. -/
theorem test_reorder : resultOf (exec (.reorder 160 64 128) s10) = some (.wire ⟨64, 160, 128⟩) := by decide
theorem test_muxbit_first : (bufOf (exec (.muxbit 0 0 0 ⟨128, 96, 32, 0⟩) s10)).map (·.take 4) =
    some [0x10, 0, 0, 0] := by decide
theorem test_muxbit_third : (bufOf (exec (.muxbit 0 0 2 ⟨128, 96, 32, 0⟩) s10)).map (·.take 4) =
    some [0, 0x60, 0, 0] := by decide
theorem test_serchan_four : (bufOf (exec (.serchan 0 0 ⟨128, 96, 32, 0⟩) s10)).map (·.take 4) =
    some [0x12, 0x60, 0, 0] := by decide +kernel
theorem test_serchan_one : (bufOf (exec (.serchan 0 0 ⟨0x01, 0, 0, 0⟩) s1)).map (·.take 4) =
    some [0, 0, 0, 0x01] := by decide +kernel
theorem test_encled : (bufOf (exec (.encled 0 1) s10)).map (·.drop 12) =
    some [0x82, 0, 0, 0, 0xB9, 0xB0, 0, 0, 0x64, 0, 0, 0] := by decide +kernel

/-- V19: ENCODE 1 on the buffer of ENCODE 0. -/
theorem test_encode_stale : bufOf (exec (.encode 1 true true) { s10 with buf := listed row0 }) = some
    ([0xF3, 0xE0, 0, 0, 0x7B, 0x60, 0, 0, 0x7B, 0, 0, 0] ++ [0xD7, 0x70, 0, 0, 0xFD, 0xF0, 0, 0, 0x6E, 0, 0, 0]) := by
  decide +kernel

/-- V16: ENCODE 0 under the mirrored lane map. -/
theorem test_encode_mirrored :
    bufOf (exec (.encode 0 true true)
      (start { cfg10 with laneFirst := lowerLanes 4, laneSecond := upperLanes 4 })) = some
    ([0x21, 0x06, 0, 0, 0x21, 0x06, 0, 0, 0x21, 0, 0, 0] ++ [0x28, 0, 0, 0, 0x9B, 0x0B, 0, 0, 0x46, 0, 0, 0]) := by
  decide +kernel

/-- V20. -/
theorem test_zerobuf : bufOf (exec .zerobuf { s10 with buf := listed row1 }) = some (List.replicate 24 0) := by decide
theorem test_persist_ok :
    persistedOf (exec .persist { s10 with buf := listed row0, persisted := [row1], answers := [.ok] }) =
      some [row1, row0] := by decide
theorem test_persist_fail :
    persistedOf (exec .persist { s10 with buf := listed row0, persisted := [row1], answers := [.fail] }) =
      some [row1] := by decide
theorem test_transmit : exec .transmit s10 = .refused .transmitNotSpecified := rfl

/-- P4. -/
theorem test_run_forced_failure :
    resultOf (exec (.run true (some 1)) { s3 with answers := [.ok, .ok, .ok] }) = some (.runStatus .failure) ∧
    persistedOf (exec (.run true (some 1)) { s3 with answers := [.ok, .ok, .ok] }) = some [row0] := by decide +kernel

/-- V20: the third PERSIST fails. -/
theorem test_run_third_persist_fails :
    persistedOf (exec (.run true none) { s10 with answers := [.ok, .ok, .fail, .ok] }) = some [row0, row1] := by
  decide +kernel

/-! ## Steps -/

/-- From reset, the next step carries out the word the host hands over (RESCALE3 5). -/
theorem test_step_from_reset :
    resultOf (step (State.reset.withFetchWord 32 0b00011101000000000000000000000000)) = some (.channel 160) := by
  decide
/-- From reset, RUN with the reference build takes a next state, whatever the collaborator answers. -/
theorem test_step_run_from_reset :
    (step (State.reset.withFetchWord 32 0b10000100000000000000000000000000)).ctorIdx = 0 := by rfl
theorem test_step_idle : step State.reset = .next State.reset := rfl
theorem test_step_reserved :
    step (State.reset.withFetchWord 32 0b10001000000000000000000000000000) =
      .refused (.notAnOperation .reservedOpId) := by rfl

/-! ## Witnesses: the mapper -/

/-- The operation takes a next state. -/
abbrev Completes (o : Host.Outcome State Fault Refusal) : Prop := (nextOf o).isSome = true

/-- The hypotheses of the RESOLVE statements: in range at the last LED and the last pattern, and each index out of
range at the first value that is. -/
abbrev InAndOut : Prop :=
  s10.cfg.WellFormed ∧ (1 < s10.cfg.ledsPerStrip ∧ 3 < s10.cfg.bitmatrixPatterns) ∧
  (s10.cfg.ledsPerStrip ≤ 2 ∨ s10.cfg.bitmatrixPatterns ≤ 3) ∧
  (s10.cfg.ledsPerStrip ≤ 1 ∨ s10.cfg.bitmatrixPatterns ≤ 4)

theorem witness_ResolveRangeCheck : InAndOut := by decide
theorem witness_ResolveTopLeft : InAndOut := by decide
theorem witness_ResolveBottomLeft : InAndOut := by decide
theorem witness_ResolveTopRight : InAndOut := by decide
theorem witness_ResolveBottomRight : InAndOut := by decide
theorem witness_GetcolorBlackOutOfRange : InAndOut := by decide
theorem witness_GetcolorIsResolveThenExpand : s10.cfg.WellFormed ∧
    resolve s10.cfg .br 3 1 = some ⟨3, 1⟩ ∧ resolve s10.cfg .br 3 2 = none := by decide
theorem witness_ResolvedCoordinatesInImage : s10.cfg.WellFormed ∧
    resultOf (exec (resolveOf .br 3 1) s10) = some (.coord (some ⟨3, 1⟩)) := by decide
theorem witness_ResolveInjectiveInQuadrant : s10.cfg.WellFormed ∧ 1 < s10.cfg.ledsPerStrip ∧
    3 < s10.cfg.bitmatrixPatterns ∧ 0 < s10.cfg.ledsPerStrip ∧ 0 < s10.cfg.bitmatrixPatterns := by decide
theorem witness_TopAndBottomRowsNeverMeet :
    (s10.cfg.WellFormed ∧ 0 < s10.cfg.ledsPerStrip ∧ 3 < s10.cfg.bitmatrixPatterns ∧ 1 < s10.cfg.ledsPerStrip ∧
      Quadrant.tr ∈ [Quadrant.tl, .tr] ∧ Quadrant.br ∈ [Quadrant.bl, .br]) ∧
    ((Config.withDefaultLanes 4 4 2 2 [.tl]).WellFormed ∧ 2 ∣ 4 / 2) := by decide
theorem witness_RightColumnsWrap :
    (s10.cfg.WellFormed ∧ s10.cfg.bitmatrixPatterns = s10.cfg.imgCols ∧ 1 < s10.cfg.ledsPerStrip ∧
      1 < s10.cfg.imgCols / 2 ∧ ¬ 2 < s10.cfg.imgCols / 2 ∧ 3 < s10.cfg.imgCols ∧ Quadrant.br ∈ [Quadrant.tr, .br]) ∧
    ((Config.withDefaultLanes 4 8 2 6 [.tl]).WellFormed ∧ 1 < 2 ∧ 5 < 6) := by decide

theorem witness_ImageIsRowMajor : s10.cfg.WellFormed ∧ 1 < s10.cfg.ledsPerStrip ∧ 3 < s10.cfg.bitmatrixPatterns ∧
    3 < s10.cfg.imgRows ∧ 3 < s10.cfg.imgCols ∧ 3 * s10.cfg.imgCols + 3 = 15 ∧
    15 < s10.cfg.imgRows * s10.cfg.imgCols := by decide

/-! ## Witnesses: the encoder -/

theorem witness_BufferIndexBijection : 1 < cfg10.ledsPerStrip ∧ bufIndex 1 2 3 = 23 ∧ 23 < cfg10.ledsPerStrip * 12 := by
  decide
theorem witness_MuxbitOrsOneBitPerStrip : s10.cfg.WellFormed ∧ 1 < s10.cfg.ledsPerStrip ∧ (2 : BitVec 2) ≠ 3 ∧
    s10.cfg.laneMap 0 3 = 7 := by decide
theorem witness_SerchanIsEightMuxbits : s10.cfg.WellFormed ∧ 1 < s10.cfg.ledsPerStrip ∧ (2 : BitVec 2) ≠ 3 ∧
    (∀ j < 4, 24 ≠ bufIndex 1 2 j) ∧ bufIndex 1 2 3 = 23 := by decide
theorem witness_SerchanClosedForm : s10.cfg.WellFormed ∧ 1 < s10.cfg.ledsPerStrip ∧ (2 : BitVec 2) ≠ 3 := by decide
theorem witness_EncledIsThreeSerchans : s10.cfg.WellFormed ∧ 1 < s10.cfg.ledsPerStrip ∧
    s10.cfg.stripAssignment[3]? = some .br ∧ (∀ c < 3, ∀ j < 4, 11 ≠ bufIndex 1 c j) := by decide
theorem witness_EncledOrsTwelveBytes : s10.cfg.WellFormed ∧ 1 < s10.cfg.ledsPerStrip := by decide
theorem witness_EncodeIsEncledPerLed : s10.cfg.WellFormed := by decide
theorem witness_InvalidArgumentHasNoSideEffect : s10.cfg.WellFormed ∧
    resultOf (exec (.encode 0 false true) s10) = some (.encStatus .invalidArgument) ∧
    resultOf (exec (.encode 0 true false) s10) = some (.encStatus .invalidArgument) := by decide
theorem witness_EncodeClosedFormOnZeroedBuffer : s10.cfg.WellFormed ∧ 1 < s10.cfg.ledsPerStrip ∧
    ∀ a < s10.cfg.ledsPerStrip * 12, s10.buf.read a = 0 := by decide +kernel
theorem witness_EncodeKeepsStaleBits : s10.cfg.WellFormed ∧ ∀ a < s10.cfg.ledsPerStrip * 12, s10.buf.read a = 0 := by
  decide +kernel
theorem witness_EncodeIsDeterministic : s10.cfg.WellFormed ∧
    s10.cfg = { s10 with draws := 5, persisted := [row0] }.cfg ∧
    s10.img = { s10 with draws := 5, persisted := [row0] }.img ∧
    s10.buf = { s10 with draws := 5, persisted := [row0] }.buf := ⟨by decide, rfl, rfl, rfl⟩
theorem witness_UnusedLanesNeverSet :
    (s1.cfg.WellFormed ∧ (∀ k < s1.cfg.numStrips, s1.cfg.laneMap 0 k ≠ 7 ∧ s1.cfg.laneMap 1 k ≠ 7)) ∧
    (s1.cfg.numStrips = 1 ∧ s1.cfg.laneFirst = upperLanes 1 ∧ s1.cfg.laneSecond = lowerLanes 1 ∧
      23 < s1.cfg.ledsPerStrip * 12 ∧ s1.buf.read 23 = 0) ∧
    ((start (Config.withDefaultLanes 4 4 2 4 [.tl, .br])).cfg.WellFormed ∧
      (start (Config.withDefaultLanes 4 4 2 4 [.tl, .br])).cfg.numStrips = 2 ∧
      (start (Config.withDefaultLanes 4 4 2 4 [.tl, .br])).buf.read 23 = 0) := by decide +kernel
theorem witness_EncodePatternOutOfRange : s10.cfg.WellFormed ∧ s10.cfg.bitmatrixPatterns ≤ 4 ∧ s10.buf.wf := by
  decide +kernel
theorem witness_EncodeDegenerateConfigurations :
    ((Config.withDefaultLanes 4 4 0 4 [.tl]).WellFormed ∧ (Config.withDefaultLanes 4 4 0 4 [.tl]).ledsPerStrip = 0) ∧
    ((Config.withDefaultLanes 4 4 2 4 []).WellFormed ∧ (Config.withDefaultLanes 4 4 2 4 []).numStrips = 0) := by decide
theorem witness_LanesNeverInteract : s10.cfg.WellFormed ∧ (∀ a < s10.cfg.ledsPerStrip * 12, s10.buf.read a = 0) ∧
    1 < s10.cfg.ledsPerStrip ∧ 3 < s10.cfg.numStrips := by decide +kernel
theorem witness_EncoderOnlySetsBits :
    Completes (exec (.muxbit 1 2 7 ⟨1, 2, 3, 4⟩) s10) ∧ Completes (exec (.serchan 1 2 ⟨1, 2, 3, 4⟩) s10) ∧
    Completes (exec (.encled 3 1) s10) ∧ Completes (exec (.encode 3 true true) s10) := by decide +kernel
theorem witness_EncoderOperandsOutsideRangeStop : s10.cfg.WellFormed ∧ s10.cfg.ledsPerStrip ≤ 2 ∧
    (2 : BitVec 2) ≠ 3 := by decide

/-! ## Witnesses: the host side -/

theorem witness_ZerobufZeroesTheBuffer : s10.cfg.WellFormed ∧ 23 < s10.cfg.ledsPerStrip * 12 := by decide
theorem witness_PersistAppendsOnOk :
    { s10 with answers := [.ok] }.cfg.WellFormed ∧ { s10 with answers := [.fail] }.cfg.WellFormed ∧
    s10.cfg.WellFormed ∧ s10.answers = [] := by decide
theorem witness_TransmitHasNoStep :
    (s10.withFetchWord 32 0b01111000000000000000000000000000).pending =
      .invoke (Call.ofWord (15#5 ++ 0#27)) :: [] := by decide
theorem witness_RunIsItsOperations : s10.cfg.WellFormed := by decide
theorem witness_RunKeepsEarlierPatterns : s10.cfg.WellFormed ∧
    resultOf (exec (.run true none) { s10 with answers := [.ok, .ok, .fail] }) = some (.runStatus .failure) ∧
    resultOf (exec (.run true none) { s10 with answers := [.ok, .ok, .ok, .ok] }) = some (.runStatus .success) := by
  decide +kernel
theorem witness_RunPersistsEveryPattern : { s10 with answers := [.ok, .ok, .ok, .ok, .fail] }.cfg.WellFormed ∧
    { s10 with answers := [.ok, .ok, .ok, .ok, .fail] }.answers =
      List.replicate s10.cfg.bitmatrixPatterns .ok ++ [.fail] := by decide
theorem witness_RunForcedFailurePersistsOne : { s3 with answers := [.ok, .fail] }.cfg.WellFormed ∧
    { s3 with answers := [.ok, .fail] }.cfg.bitmatrixPatterns = 3 ∧
    { s3 with answers := [.ok, .fail] }.answers = .ok :: [.fail] := by decide
theorem witness_RunStopsAtFailedPersist :
    (3 < s10.cfg.bitmatrixPatterns ∧ s10.cfg.WellFormed ∧ { s10 with answers := [.ok, .ok, .ok, .fail] }.answers =
      List.replicate 3 .ok ++ .fail :: []) ∧
    (0 < s10.cfg.bitmatrixPatterns ∧ { s10 with answers := [.fail, .ok] }.answers =
      List.replicate 0 .ok ++ .fail :: [.ok]) := by decide
theorem witness_RunCornerCases :
    ((Config.withDefaultLanes 4 4 2 0 [.tl]).WellFormed ∧ (Config.withDefaultLanes 4 4 2 0 [.tl]).bitmatrixPatterns = 0) ∧
    (s10.cfg.WellFormed ∧ 0 < s10.cfg.bitmatrixPatterns ∧ (none : Option Nat) ≠ some 0) := by decide

/-! ## Witnesses: the whole machine -/

/-- The next request is ENCODE of pattern 0. -/
def encoding : State := s10.withFetchWord 32 0b01100110000000000000000000000000

theorem witness_ConfigurationNeverChanges : Completes (step encoding) := by decide +kernel
theorem witness_OnlyTheHostWritesTheImage : Completes (exec (.run true none) s10) ∧ Completes (step encoding) ∧
    Completes (step { s10 with pending := [.writeImg 15 0x5A] }) := by decide +kernel
theorem witness_WritersOfBufferAndPersisted : Completes (exec (.encled 3 1) s10) ∧
    Completes (exec .persist { s10 with answers := [.ok] }) ∧ Completes (exec (.getcolor 3 1 .br) s10) := by
  decide +kernel
theorem witness_StepKeepsInvariant : encoding.Inv ∧ Completes (step encoding) :=
  ⟨⟨by decide +kernel, by decide +kernel, by decide +kernel, by decide +kernel, by decide +kernel⟩, by decide +kernel⟩
theorem witness_DefaultLaneMapFitsFourStrips :
    [Quadrant.tl, .bl, .tr, .br].length ≤ 4 ∧ 3 < [Quadrant.tl, .bl, .tr, .br].length := by decide
theorem witness_IllFormedConfigurationRefused : ¬ (start { cfg10 with ledsPerStrip := 3 }).cfg.WellFormed ∧
    (2 : BitVec 2) ≠ 3 := by decide
theorem witness_DecodeOfEncode : (Instr.muxbit 1 2 7 ⟨1, 2, 3, 4⟩).wellFormed = true := by decide
theorem witness_EncodeOfDecode : read 0b01101000000000000000000000000000 = .ok .zerobuf := test_word_zerobuf
theorem witness_ReservedWordsRefused :
    17 ≤ ((0b10001000000000000000000000000000 : TableWord).extractLsb' 27 5).toNat ∧
    17 ≤ ((0b11111000000000000000000000000000 : TableWord).extractLsb' 27 5).toNat ∧
    (((0b01001110000000000000000000000000 : TableWord).extractLsb' 27 5).toNat = 9 ∧
      (0b01001110000000000000000000000000 : TableWord).extractLsb' 25 2 = 3) ∧
    (((0b01010110000000000000000000000000 : TableWord).extractLsb' 27 5).toNat = 10 ∧
      (0b01010110000000000000000000000000 : TableWord).extractLsb' 25 2 = 3) ∧
    { s10 with pending := [.invoke (Call.ofWord 0b10001000000000000000000000000000)] }.pending =
      .invoke (Call.ofWord 0b10001000000000000000000000000000) :: [] := by decide
theorem witness_StepRunsTheDecodedOperation :
    (encoding.pending = .invoke (Call.ofWord 0b01100110000000000000000000000000) :: [] ∧
      read 0b01100110000000000000000000000000 = .ok (.encode 0 true true)) ∧
    ((s10.withFetchWord 32 0b01101000000000000000000000000001).pending =
        .invoke (Call.ofWord 0b01101000000000000000000000000001) :: [] ∧
      read 0b01101000000000000000000000000001 = .error .paddingNotZero) ∧
    s10.pending = [] ∧
    (s10.cfg.WellFormed ∧ 15 < s10.cfg.imgRows * s10.cfg.imgCols ∧ s10.cfg.imgRows * s10.cfg.imgCols ≤ 16 ∧
      { s10 with pending := [.writeImg 15 0xFF] }.pending = .writeImg 15 0xFF :: []) ∧
    (23 < s10.cfg.ledsPerStrip * 12 ∧ s10.cfg.ledsPerStrip * 12 ≤ 24 ∧
      { s10 with pending := [.writeBuf 23 1] }.pending = .writeBuf 23 1 :: []) ∧
    ¬ { start { cfg10 with ledsPerStrip := 3 } with pending := [.writeImg 15 0xFF] }.cfg.WellFormed :=
  ⟨⟨by decide, rfl⟩, ⟨by decide, rfl⟩, by decide, by decide, by decide, by decide⟩

end Sys2Proof.Tests
end

/-! SUPPORT. The proofs of the statements of 00_scope.md: the default lane map (R10), the refusal of an ill-formed
configuration (R9), and what a step does with the head of the host's queue (R15, R19, R189). -/

namespace Sys2Proof

/-! ## The default lane map -/

theorem upperLanes_getD {n k : Nat} (hn : n ≤ 4) (hk : k < n) : ((upperLanes n).getD k 0).val = 4 + k := by
  have inByte : (4 + k) % 8 = 4 + k := Nat.mod_eq_of_lt (by omega)
  simp [upperLanes, List.getD, hk, inByte]

theorem lowerLanes_getD {n k : Nat} (hn : n ≤ 4) (hk : k < n) : ((lowerLanes n).getD k 0).val = k := by
  have inByte : k % 8 = k := Nat.mod_eq_of_lt (by omega)
  simp [lowerLanes, List.getD, hk, inByte]

/-- Up to four strips, the two nibbles share no lane and name none twice. -/
theorem defaultLanes_nodup : ∀ n ≤ 4, (upperLanes n ++ lowerLanes n).Nodup := by decide

/-- Lane 4 is sub-bit 0 of strip 0 and sub-bit 1 of strip 4: the clash of R237. -/
theorem fiveStrips_lanes_meet : (4 : Fin 8) ∈ upperLanes 5 ∧ (4 : Fin 8) ∈ lowerLanes 5 := by decide

/-- Settles O53: below four the additions of R10 stay inside a byte, and at five strips lane 4 is named twice. -/
theorem defaultLaneMapFitsFourStrips : Obligations.DefaultLaneMapFitsFourStrips := by
  refine ⟨fun rows cols leds patterns strips k hn hk => ⟨upperLanes_getD hn hk, lowerLanes_getD hn hk⟩,
    defaultLanes_nodup, fun nodup => ?_⟩
  obtain ⟨upper, lower⟩ := fiveStrips_lanes_meet
  exact List.disjoint_of_nodup_append nodup upper lower

end Sys2Proof

namespace Sys2Proof.Machine

/-! ## An ill-formed configuration -/

section
variable {s : State} (h : ¬ s.cfg.WellFormed)
include h

theorem exec_resolveOf_illFormed (q : Quadrant) (p l : Nat) :
    exec (resolveOf q p l) s = .refused .illFormedConfiguration := by
  cases q <;> exact requireConfig_neg h _

/-- The channel check comes first, so the configuration is reached only past it. -/
theorem exec_muxbit_illFormed {c : BitVec 2} (hc : c ≠ 3) (l : Nat) (i : BitVec 3) (w : StripBytes) :
    exec (.muxbit l c i w) s = .refused .illFormedConfiguration :=
  (requireChannel_pos hc _).trans (requireConfig_neg h _)

theorem exec_serchan_illFormed {c : BitVec 2} (hc : c ≠ 3) (l : Nat) (w : StripBytes) :
    exec (.serchan l c w) s = .refused .illFormedConfiguration :=
  (requireChannel_pos hc _).trans (requireConfig_neg h _)

end

/-- Settles O54: each of these operations meets `requireConfig` before anything else but the channel check. -/
theorem illFormedConfigurationRefused : Obligations.IllFormedConfigurationRefused := by
  intro s p l q c b w m m' absent h hc
  simp only [List.forall_mem_cons]
  exact ⟨exec_resolveOf_illFormed h q p l,
    (requireConfig_neg h _ : exec (.getcolor p l q) s = _),
    exec_muxbit_illFormed h hc l b w,
    exec_serchan_illFormed h hc l w,
    (requireConfig_neg h _ : exec (.encled p l) s = _),
    (requireConfig_neg h _ : exec (.encode p m m') s = _),
    (requireConfig_neg h _ : exec .zerobuf s = _),
    (requireConfig_neg h _ : exec .persist s = _),
    (requireConfig_neg h _ : exec (.run m absent) s = _),
    List.forall_mem_nil _⟩

/-! ## A step, by the head of the host's queue -/

theorem step_of_idle {s : State} (h : s.pending = []) : step s = .next s := by
  simp only [step, h]

section
variable {s : State} {rest : List HostAction}

theorem step_of_decoded {k : Call} {i : Instr} (h : s.pending = .invoke k :: rest) (hd : decode k = .ok i) :
    step s = exec i (s.accept rest) := by
  simp only [step, h, hd]

theorem step_of_undecoded {k : Call} {e : DecodeError} (h : s.pending = .invoke k :: rest)
    (hd : decode k = .error e) : step s = .refused (.notAnOperation e) := by
  simp only [step, h, hd]

theorem step_of_writeImg {n : Nat} {v : Byte} (h : s.pending = .writeImg n v :: rest) :
    step s = hostWriteImg n v (s.accept rest) := by
  simp only [step, h]

theorem step_of_writeBuf {n : Nat} {v : Byte} (h : s.pending = .writeBuf n v :: rest) :
    step s = hostWriteBuf n v (s.accept rest) := by
  simp only [step, h]

end

/-! ## A host write -/

section
variable {s : State} {n : Nat} (v : Byte)

theorem hostWriteImg_inside (h : s.cfg.WellFormed) (hn : n < s.cfg.imgLen) :
    hostWriteImg n v s = .next { s with img := s.img.write n v } :=
  (requireConfig_pos h _).trans (if_pos hn)

theorem hostWriteImg_outside (h : s.cfg.WellFormed) (hn : s.cfg.imgLen ≤ n) :
    hostWriteImg n v s = .fault .noSuchByte :=
  (requireConfig_pos h _).trans (if_neg (Nat.not_lt.mpr hn))

theorem hostWriteBuf_inside (h : s.cfg.WellFormed) (hn : n < s.cfg.bufLen) :
    hostWriteBuf n v s = .next { s with buf := s.buf.write n v } :=
  (requireConfig_pos h _).trans (if_pos hn)

theorem hostWriteBuf_outside (h : s.cfg.WellFormed) (hn : s.cfg.bufLen ≤ n) :
    hostWriteBuf n v s = .fault .noSuchByte :=
  (requireConfig_pos h _).trans (if_neg (Nat.not_lt.mpr hn))

end

/-- Settles O59: the step by the head of the queue, and for the two host writes the three ways each can end. -/
theorem stepRunsTheDecodedOperation : Obligations.StepRunsTheDecodedOperation := by
  refine ⟨fun s k rest hp => ⟨fun i hd => step_of_decoded hp hd, fun e hd => step_of_undecoded hp hd⟩,
    fun s hp => step_of_idle hp, fun s n v rest hp => ?image, fun s n v rest hp => ?buffer⟩
  case image =>
    rw [step_of_writeImg hp]
    exact ⟨fun h hn => ⟨s.img.write n v, hostWriteImg_inside v h hn, s.img.read_write n v⟩,
      fun h hn => hostWriteImg_outside v h hn, fun h => requireConfig_neg h _⟩
  case buffer =>
    rw [step_of_writeBuf hp]
    exact ⟨fun h hn => ⟨s.buf.write n v, hostWriteBuf_inside v h hn, s.buf.read_write n v⟩,
      fun h hn => hostWriteBuf_outside v h hn, fun h => requireConfig_neg h _⟩

end Sys2Proof.Machine

/-! SUPPORT. The proofs of the statements of 10_state.md: what no step changes (R22, R24), who writes `BUF` and
`PERSISTED` (R20, R37), and the state after reset (R39). -/

namespace Sys2Proof.Machine

/-! ## What no operation changes -/

/-- ENCODE changes no field but `BUF`. -/
theorem encodePattern_frame (p : Nat) (image buffer : Bool) (s : State) :
    ∃ b, (encodePattern p image buffer s).1 = { s with buf := b } := by
  rcases encodePattern_cases p image buffer s with ⟨-, -, e⟩ | ⟨-, e⟩
  · exact ⟨encodeLeds s.cfg s.img p s.buf, congrArg Prod.fst e⟩
  · exact ⟨s.buf, congrArg Prod.fst e⟩

/-- No operation changes the configuration, the image or the host's requests. -/
theorem exec_keeps {i : Instr} {s t : State} (h : exec i s = .next t) :
    t.cfg = s.cfg ∧ t.img = s.img ∧ t.pending = s.pending := by
  rcases exec_cases h with ⟨r, rfl, -⟩ | ⟨b, rfl, -⟩ | ⟨p, image, buffer, -, rfl⟩ | ⟨-, rfl⟩ | ⟨image, absent, -, rfl⟩
  · exact ⟨rfl, rfl, rfl⟩
  · exact ⟨rfl, rfl, rfl⟩
  · obtain ⟨b, e⟩ := encodePattern_frame p image buffer s
    simp [e]
  · obtain ⟨cfg, img, -, pending, -⟩ := persistBuf_keeps s
    exact ⟨cfg, img, pending⟩
  · obtain ⟨cfg, img, pending, -⟩ := runFrom_keeps image absent (List.range s.cfg.bitmatrixPatterns) s
    exact ⟨cfg, img, pending⟩

/-- Settles O48: neither an operation nor a host write changes the configuration. -/
theorem configurationNeverChanges : Obligations.ConfigurationNeverChanges := by
  intro s t h
  rcases step_cases h with ⟨-, rfl⟩ | ⟨call, rest, i, -, -, hexec⟩ | ⟨n, v, rest, -, -, rfl⟩ | ⟨n, v, rest, -, -, rfl⟩
  · rfl
  · exact (exec_keeps hexec).1
  · rfl
  · rfl

/-- Settles O49: of the four things a step can be, only the host's write of the image changes it. -/
theorem onlyTheHostWritesTheImage : Obligations.OnlyTheHostWritesTheImage := by
  refine ⟨fun i s t h => (exec_keeps h).2, fun s t h => ?_⟩
  rcases step_cases h with
    ⟨-, rfl⟩ | ⟨call, rest, i, -, -, hexec⟩ | ⟨n, v, rest, hwrite, -, -⟩ | ⟨n, v, rest, -, -, rfl⟩
  · exact .inl rfl
  · exact .inl (exec_keeps hexec).2.1
  · exact .inr ⟨n, v, rest, hwrite⟩
  · exact .inl rfl

/-! ## The writers of `BUF` -/

/-- Handing back a result changes no buffer. -/
theorem buf_of_next_withResult {s t : State} {r : Result}
    (h : (.next (s.withResult r) : Host.Outcome State Fault Refusal) = .next t) : t.buf = s.buf := by
  cases h
  rfl

/-- The writers of `BUF` in R20's table: every other operation leaves it. -/
theorem exec_buf_or_writer {i : Instr} {s t : State} (h : exec i s = .next t) :
    t.buf = s.buf ∨ (∃ led c b w, i = .muxbit led c b w) ∨ (∃ led c w, i = .serchan led c w) ∨
      (∃ p led, i = .encled p led) ∨ (∃ p m b, i = .encode p m b) ∨ i = .zerobuf ∨ ∃ m a, i = .run m a := by
  cases i with
  | unpackR px => exact .inl (buf_of_next_withResult h)
  | unpackG px => exact .inl (buf_of_next_withResult h)
  | unpackB px => exact .inl (buf_of_next_withResult h)
  | rescale3 f => exact .inl (buf_of_next_withResult h)
  | rescale2 f => exact .inl (buf_of_next_withResult h)
  | expand px => exact .inl (buf_of_next_withResult h)
  | reorder r g b => exact .inl (buf_of_next_withResult h)
  | resolveTl p l => exact .inl (buf_of_next_withResult (requireConfig_eq_next h).2)
  | resolveBl p l => exact .inl (buf_of_next_withResult (requireConfig_eq_next h).2)
  | resolveTr p l => exact .inl (buf_of_next_withResult (requireConfig_eq_next h).2)
  | resolveBr p l => exact .inl (buf_of_next_withResult (requireConfig_eq_next h).2)
  | getcolor p l q => exact .inl (buf_of_next_withResult (requireConfig_eq_next h).2)
  | persist =>
    obtain ⟨-, -, buf, -, -⟩ := persistBuf_keeps s
    exact .inl ((buf_of_next_withResult (requireConfig_eq_next h).2).trans buf)
  | transmit => cases h
  | muxbit | serchan | encled | encode | zerobuf | run => simp

/-! ## `PERSISTED` and the collaborator's answers -/

/-- Every operation but PERSIST and RUN leaves `PERSISTED` and takes no answer. -/
theorem exec_persisted_or_writer {i : Instr} {s t : State} (h : exec i s = .next t) :
    t.persisted = s.persisted ∧ t.answers = s.answers ∧ t.draws = s.draws ∨ i = .persist ∨ ∃ m a, i = .run m a := by
  rcases exec_cases h with
    ⟨r, rfl, -⟩ | ⟨b, rfl, -⟩ | ⟨p, image, buffer, -, rfl⟩ | ⟨rfl, -⟩ | ⟨image, absent, rfl, -⟩
  · exact .inl ⟨rfl, rfl, rfl⟩
  · exact .inl ⟨rfl, rfl, rfl⟩
  · obtain ⟨b, e⟩ := encodePattern_frame p image buffer s
    simp [e]
  · exact .inr (.inl rfl)
  · exact .inr (.inr ⟨image, absent, rfl⟩)

@[simp] theorem zeroIfPresent_persisted (buffer : Bool) (s : State) :
    (zeroIfPresent buffer s).persisted = s.persisted := by
  cases buffer <;> rfl

theorem persistBuf_persisted_grows (s : State) : s.persisted <+: (persistBuf s).1.persisted := by
  rcases persistBuf_persisted s with ⟨-, e⟩ | ⟨-, e⟩
  · exact ⟨[bufCopy s], e.symm⟩
  · simp [e]

/-- RUN's loop only appends to `PERSISTED`. -/
theorem runFrom_persisted_grows (image : Bool) (absent : Option Nat) (ps : List Nat) (s : State) :
    s.persisted <+: (runFrom image absent ps s).1.persisted := by
  induction ps generalizing s with
  | nil => simp [runFrom]
  | cons p rest ih =>
    rcases runFrom_cons image absent p rest s with ⟨-, e⟩ | ⟨-, -, t, ht, hpersist⟩
    · simp [e]
    · have encoded : t.persisted = s.persisted := by rw [ht]
      rw [← encoded]
      rcases hpersist with ⟨-, e⟩ | ⟨-, e⟩
      · exact e ▸ persistBuf_persisted_grows t
      · exact e ▸ (persistBuf_persisted_grows t).trans (ih _)

/-- Nothing leaves `PERSISTED` (R37). -/
theorem exec_persisted_grows {i : Instr} {s t : State} (h : exec i s = .next t) : s.persisted <+: t.persisted := by
  rcases exec_cases h with ⟨r, rfl, -⟩ | ⟨b, rfl, -⟩ | ⟨p, image, buffer, -, rfl⟩ | ⟨-, rfl⟩ | ⟨image, absent, -, rfl⟩
  · simp
  · simp
  · obtain ⟨b, e⟩ := encodePattern_frame p image buffer s
    simp [e]
  · exact persistBuf_persisted_grows s
  · exact runFrom_persisted_grows image absent (List.range s.cfg.bitmatrixPatterns) s

/-- Settles O50: the writers of `BUF`, the writers of `PERSISTED`, and `PERSISTED` growing at its end only. -/
theorem writersOfBufferAndPersisted : Obligations.WritersOfBufferAndPersisted := by
  intro i s t h
  obtain ⟨more, appended⟩ := exec_persisted_grows h
  exact ⟨exec_buf_or_writer h, exec_persisted_or_writer h, more, appended.symm⟩

/-! ## The state after reset -/

/-- Two empty memories and nothing persisted meet the invariant, under every configuration. -/
theorem State.inv_of_empty {s : State} (himg : s.img = []) (hbuf : s.buf = []) (hpersisted : s.persisted = []) :
    s.Inv where
  imgCanonical := by simp [himg, Memory.wf]
  bufCanonical := by simp [hbuf, Memory.wf]
  imgInside := by simp [himg]
  bufInside := by simp [hbuf]
  wholeCopies := by simp [hpersisted]

theorem resetConfig_wellFormed : resetConfig.WellFormed := by decide

/-- Settles O52: nothing is listed and nothing is persisted, so the invariant is met. -/
theorem resetMeetsInvariant : Obligations.ResetMeetsInvariant :=
  ⟨State.inv_of_empty rfl rfl rfl, rfl, rfl, rfl, resetConfig_wellFormed⟩

end Sys2Proof.Machine

/-! SUPPORT. The proofs of the statements of 20_memory.md: the invariant of the memories and of `PERSISTED` (R50, R53,
R58, R37), the row-major image (R51, R52), the buffer index (R54, R58), and `BufOr` in the encoder (R36, R56). -/

namespace Sys2Proof.Machine

/-! ## The invariant -/

theorem State.Inv.bufFits {s : State} (h : s.Inv) : Fits s.cfg.bufLen s.buf := ⟨h.bufCanonical, h.bufInside⟩

/-- Under the same configuration and image, the invariant asks for a buffer that fits and for whole copies. -/
theorem State.Inv.of_same_image {s t : State} (h : s.Inv) (hcfg : t.cfg = s.cfg) (himg : t.img = s.img)
    (hbuf : Fits s.cfg.bufLen t.buf) (hcopies : ∀ b ∈ t.persisted, b.length = s.cfg.bufLen) : t.Inv where
  imgCanonical := himg ▸ h.imgCanonical
  bufCanonical := hbuf.1
  imgInside := by rw [himg, hcfg]; exact h.imgInside
  bufInside := by rw [hcfg]; exact hbuf.2
  wholeCopies := by rw [hcfg]; exact hcopies

theorem State.Inv.setBuf {s : State} (h : s.Inv) {b : Memory} (hb : Fits s.cfg.bufLen b) :
    State.Inv { s with buf := b } :=
  h.of_same_image rfl rfl hb h.wholeCopies

theorem State.Inv.withResult {s : State} (h : s.Inv) (r : Result) : (s.withResult r).Inv :=
  h.of_same_image rfl rfl h.bufFits h.wholeCopies

theorem State.Inv.withBuf {s : State} (h : s.Inv) {b : Memory} (hb : Fits s.cfg.bufLen b) : (s.withBuf b).Inv :=
  h.of_same_image rfl rfl hb h.wholeCopies

theorem State.Inv.accept {s : State} (h : s.Inv) (rest : List HostAction) : (s.accept rest).Inv :=
  h.of_same_image rfl rfl h.bufFits h.wholeCopies

theorem State.Inv.writeImg {s : State} (h : s.Inv) {n : Nat} (hn : n < s.cfg.imgLen) (v : Byte) :
    State.Inv { s with img := s.img.write n v } where
  imgCanonical := Memory.wf_write h.imgCanonical n v
  bufCanonical := h.bufCanonical
  imgInside := Memory.within_write h.imgInside hn v
  bufInside := h.bufInside
  wholeCopies := h.wholeCopies

theorem State.Inv.encodePattern {s : State} (h : s.Inv) (p : Nat) (image buffer : Bool) :
    (encodePattern p image buffer s).1.Inv := by
  rcases encodePattern_cases p image buffer s with ⟨-, -, e⟩ | ⟨-, e⟩ <;> rw [e]
  · exact h.setBuf (encodeLeds_fits h.bufFits)
  · exact h

theorem State.Inv.zeroIfPresent {s : State} (h : s.Inv) (buffer : Bool) : (zeroIfPresent buffer s).Inv := by
  cases buffer with
  | false => exact h
  | true => exact h.setBuf (zeroBytes_fits h.bufFits)

/-- PERSIST hands over every byte of the buffer (R37). -/
@[simp] theorem bufCopy_length (s : State) : (bufCopy s).length = s.cfg.bufLen := by simp [bufCopy]

theorem State.Inv.persistBuf {s : State} (h : s.Inv) : (persistBuf s).1.Inv := by
  obtain ⟨hcfg, himg, hbuf, -, -⟩ := persistBuf_keeps s
  refine h.of_same_image hcfg himg (hbuf ▸ h.bufFits) fun b hb => ?_
  rcases persistBuf_persisted s with ⟨-, e⟩ | ⟨-, e⟩ <;> rw [e] at hb
  · rcases List.mem_append.mp hb with old | new
    · exact h.wholeCopies b old
    · rw [List.mem_singleton.mp new, bufCopy_length]
  · exact h.wholeCopies b hb

/-- RUN's loop keeps the invariant: each iteration zeroes, encodes and persists, or stops on the way. -/
theorem State.Inv.runFrom {s : State} (h : s.Inv) (image : Bool) (absent : Option Nat) (ps : List Nat) :
    (runFrom image absent ps s).1.Inv := by
  induction ps generalizing s with
  | nil => exact h
  | cons p rest ih =>
    rcases runFrom_cons image absent p rest s with ⟨-, e⟩ | ⟨-, -, t, rfl, hpersist⟩
    · exact e ▸ h.zeroIfPresent _
    · have encoded := h.setBuf (encodeLeds_fits (img := s.img) (pattern := p) (zeroBytes_fits h.bufFits))
      rcases hpersist with ⟨-, e⟩ | ⟨-, e⟩
      · exact e ▸ encoded.persistBuf
      · exact e ▸ ih encoded.persistBuf

theorem State.Inv.exec {i : Instr} {s t : State} (hs : s.Inv) (h : exec i s = .next t) : t.Inv := by
  rcases exec_cases h with
    ⟨r, rfl, -⟩ | ⟨b, rfl, fits⟩ | ⟨p, image, buffer, -, rfl⟩ | ⟨-, rfl⟩ | ⟨image, absent, -, rfl⟩
  · exact hs.withResult r
  · exact hs.withBuf (fits hs.bufFits)
  · exact (hs.encodePattern p image buffer).withResult _
  · exact hs.persistBuf.withResult _
  · exact (hs.runFrom image absent _).withResult _

/-- Settles O51: each of the four things a step can be keeps the invariant. -/
theorem stepKeepsInvariant : Obligations.StepKeepsInvariant := by
  intro s t hs h
  rcases step_cases h with
    ⟨-, rfl⟩ | ⟨call, rest, i, -, -, hexec⟩ | ⟨n, v, rest, -, hn, rfl⟩ | ⟨n, v, rest, -, hn, rfl⟩
  · exact hs
  · exact (hs.accept rest).exec hexec
  · exact (hs.accept rest).writeImg hn v
  · exact (hs.accept rest).setBuf (hs.bufFits.write hn v)

/-! ## The row-major image -/

/-- R51: a coordinate of the image has its byte inside the image. -/
theorem imgIndex_lt {c : Config} {row col : Nat} (hrow : row < c.imgRows) (hcol : col < c.imgCols) :
    c.imgIndex row col < c.imgLen :=
  calc row * c.imgCols + col < row * c.imgCols + c.imgCols := by omega
    _ = (row + 1) * c.imgCols := (Nat.succ_mul _ _).symm
    _ ≤ c.imgRows * c.imgCols := Nat.mul_le_mul_right _ hrow

/-- R51: the row and the column of a byte are its quotient and its remainder by the row length. -/
theorem imgIndex_eq_iff {c : Config} {row col n : Nat} (hcol : col < c.imgCols) :
    c.imgIndex row col = n ↔ row = n / c.imgCols ∧ col = n % c.imgCols := by
  rw [Config.imgIndex, eq_comm (a := row), eq_comm (a := col), Nat.div_mod_unique (Nat.zero_lt_of_lt hcol),
    Nat.add_comm, Nat.mul_comm, and_iff_left hcol]

/-- R51: every byte of the image is the pixel of exactly one coordinate. -/
theorem existsUnique_imgIndex {c : Config} {n : Nat} (h : n < c.imgLen) :
    ∃! x : Coord, x.row < c.imgRows ∧ x.col < c.imgCols ∧ c.imgIndex x.row x.col = n := by
  have hcols : 0 < c.imgCols := Nat.pos_of_ne_zero fun e => by simp [Config.imgLen, e] at h
  refine ⟨⟨n / c.imgCols, n % c.imgCols⟩, ⟨?_, Nat.mod_lt _ hcols, ?_⟩, ?_⟩
  · exact Nat.div_lt_of_lt_mul (Nat.mul_comm .. ▸ h)
  · exact (imgIndex_eq_iff (Nat.mod_lt _ hcols)).mpr ⟨rfl, rfl⟩
  · rintro ⟨row, col⟩ ⟨-, hcol, e⟩
    obtain ⟨rfl, rfl⟩ := (imgIndex_eq_iff hcol).mp e
    rfl

/-- R142, where the coordinate is present. -/
theorem getColor_of_resolve {c : Config} {img : Memory} {p l : Nat} {q : Quadrant} {x : Coord}
    (h : resolve c q p l = some x) : getColor c img p l q = expandPixel (img.read (c.imgIndex x.row x.col)) := by
  simp only [getColor, h, imgRead]

/-- Settles O20: quotient and remainder by the row length undo the formula, and the coordinate RESOLVE gives in range
is the one GETCOLOR reads at. -/
theorem imageIsRowMajor : Obligations.ImageIsRowMajor := by
  refine ⟨fun c => ⟨fun _ _ => imgIndex_lt, fun _ => existsUnique_imgIndex⟩, fun s p l q h hl hp => ?_⟩
  have present : ¬ isAbsent s.cfg p l := not_or.mpr ⟨Nat.not_le.mpr hl, Nat.not_le.mpr hp⟩
  obtain ⟨x, hx⟩ : ∃ x, resolve s.cfg q p l = some x := ⟨_, resolve_of_present present q⟩
  refine ⟨x, expandPixel (s.img.read (s.cfg.imgIndex x.row x.col)), ?_, rfl, ?_⟩
  · rw [exec_resolveOf h, hx, State.withResult]
  · rw [exec_getcolor h, getColor_of_resolve hx, State.withResult]

/-! ## The buffer index -/

/-- R54: an index's LED, channel position and pair are its digits to the bases 3 and 4. -/
theorem bufIndex_eq_iff {led ch j a : Nat} (hc : ch < 3) (hj : j < 4) :
    bufIndex led ch j = a ↔ led = a / 12 ∧ ch = a % 12 / 4 ∧ j = a % 4 := by
  unfold bufIndex
  omega

/-- Settles O23: the digits of an index are its one (LED, channel position, pair). -/
theorem bufferIndexBijection : Obligations.BufferIndexBijection := by
  refine fun c => ⟨fun led ch j => bufIndex_lt, fun a ha => ?_⟩
  have led : a / 12 < c.ledsPerStrip := by omega
  have channel : a % 12 / 4 < 3 := by omega
  have pair : a % 4 < 4 := by omega
  refine ⟨(a / 12, a % 12 / 4, a % 4), ⟨led, channel, pair, ?_⟩, ?_⟩
  · exact (bufIndex_eq_iff channel pair).mpr ⟨rfl, rfl, rfl⟩
  · rintro ⟨led, ch, j⟩ ⟨-, hc, hj, e⟩
    obtain ⟨rfl, rfl, rfl⟩ := (bufIndex_eq_iff hc hj).mp e
    rfl

/-! ## The encoder only sets bits -/

/-- A change of the buffer that is one OR: every byte gets a mask that does not depend on what the buffer holds. -/
def OrsMask (f : Memory → Memory) : Prop := ∃ mask : Nat → Byte, ∀ b a, (f b).read a = b.read a ||| mask a

/-- An OR into the bytes that `P` names is an OR with the zero mask at the others. -/
theorem orsMask_of_read {f : Memory → Memory} {P : Nat → Prop} [DecidablePred P] {v : Nat → Byte}
    (h : ∀ b a, (f b).read a = if P a then b.read a ||| v a else b.read a) : OrsMask f := by
  refine ⟨fun a => if P a then v a else 0, fun b a => ?_⟩
  rw [h]
  by_cases ha : P a <;> simp [ha]

/-- R36: an OR clears no bit. -/
theorem OrsMask.keeps_bit {f : Memory → Memory} (h : OrsMask f) {b : Memory} {a n : Nat}
    (hbit : (b.read a).getLsbD n = true) : ((f b).read a).getLsbD n = true := by
  obtain ⟨mask, hmask⟩ := h
  simp [hmask, hbit]

/-- R56: ORing the same mask again changes nothing. -/
theorem OrsMask.idempotent {f : Memory → Memory} (h : OrsMask f) (b : Memory) (a : Nat) :
    (f (f b)).read a = (f b).read a := by
  obtain ⟨mask, hmask⟩ := h
  simp [hmask, BitVec.or_assoc]

theorem orsMask_id : OrsMask id := ⟨fun _ => 0, fun b a => by simp⟩

/-- From `s`, with any contents of `BUF` and any result handed back before, the operation ORs one and the same mask
into `BUF`, hands back one and the same result, and changes nothing else. -/
def OrsIntoBuffer (i : Instr) (s : State) : Prop :=
  ∃ (f : Memory → Memory) (r : Result), OrsMask f ∧
    ∀ b r₀, exec i { s with buf := b, result := r₀ } = .next { s with buf := f b, result := r }

section
variable {s t : State}

theorem muxbit_orsIntoBuffer {led : Nat} {c : BitVec 2} {i : BitVec 3} {w : StripBytes}
    (h : exec (.muxbit led c i w) s = .next t) : OrsIntoBuffer (.muxbit led c i w) s := by
  obtain ⟨hc, h⟩ := requireChannel_eq_next h
  obtain ⟨hcfg, h⟩ := requireConfig_eq_next h
  obtain ⟨hl, -⟩ := requireLed_eq_next h
  exact ⟨muxBit s.cfg w.get led c.toNat i.toNat, .nothing, orsMask_of_read fun b a => muxBit_read ..,
    fun b r₀ => exec_muxbit (s := { s with buf := b, result := r₀ }) hcfg hl hc i w⟩

theorem serchan_orsIntoBuffer {led : Nat} {c : BitVec 2} {w : StripBytes}
    (h : exec (.serchan led c w) s = .next t) : OrsIntoBuffer (.serchan led c w) s := by
  obtain ⟨hc, h⟩ := requireChannel_eq_next h
  obtain ⟨hcfg, h⟩ := requireConfig_eq_next h
  obtain ⟨hl, -⟩ := requireLed_eq_next h
  exact ⟨serChan s.cfg w.get led c.toNat, .nothing, orsMask_of_read fun b a => serChan_read ..,
    fun b r₀ => exec_serchan (s := { s with buf := b, result := r₀ }) hcfg hl hc w⟩

theorem encled_orsIntoBuffer {p led : Nat} (h : exec (.encled p led) s = .next t) :
    OrsIntoBuffer (.encled p led) s := by
  obtain ⟨hcfg, h⟩ := requireConfig_eq_next h
  obtain ⟨hl, -⟩ := requireLed_eq_next h
  exact ⟨encLed s.cfg s.img p led, .nothing, orsMask_of_read fun b a => encLed_read ..,
    fun b r₀ => exec_encled (s := { s with buf := b, result := r₀ }) hcfg hl p⟩

/-- With both references ENCODE ORs R165's bytes; with one absent it ORs nothing (R201). -/
theorem encode_orsIntoBuffer {p : Nat} {image buffer : Bool} (h : exec (.encode p image buffer) s = .next t) :
    OrsIntoBuffer (.encode p image buffer) s := by
  obtain ⟨hcfg, -⟩ := requireConfig_eq_next h
  rcases encodePattern_cases p image buffer s with ⟨rfl, rfl, -⟩ | ⟨absent, -⟩
  · exact ⟨encodeLeds s.cfg s.img p, .encStatus .ok, orsMask_of_read fun b a => encodeLeds_read ..,
      fun b r₀ => exec_encode (s := { s with buf := b, result := r₀ }) hcfg p true true⟩
  · have refs : ¬ referencesPresent image buffer = true := by
      rcases absent with rfl | rfl <;> simp [referencesPresent]
    refine ⟨id, .encStatus .invalidArgument, orsMask_id, fun b r₀ => ?_⟩
    rw [exec_encode (s := { s with buf := b, result := r₀ }) hcfg, encodePattern, if_neg refs]
    rfl

end

/-- Settles O38: each of the four is one OR, and an OR clears no bit and is idempotent. -/
theorem encoderOnlySetsBits : Obligations.EncoderOnlySetsBits := by
  intro i s t hi h
  have ors : OrsIntoBuffer i s := by
    rcases hi with ⟨led, c, b, w, rfl⟩ | ⟨led, c, w, rfl⟩ | ⟨p, led, rfl⟩ | ⟨p, m, b, rfl⟩
    · exact muxbit_orsIntoBuffer h
    · exact serchan_orsIntoBuffer h
    · exact encled_orsIntoBuffer h
    · exact encode_orsIntoBuffer h
  obtain ⟨f, r, hf, hexec⟩ := ors
  obtain rfl : { s with buf := f s.buf, result := r } = t :=
    Host.Outcome.next.inj ((hexec s.buf s.result).symm.trans h)
  exact ⟨fun a n => hf.keeps_bit, _, hexec (f s.buf) r, rfl, fun a => hf.idempotent s.buf a⟩

end Sys2Proof.Machine

/-! SUPPORT. The proofs of the statements of 30_encoding.md: decode and encode agree (R92, R93), and what names no
operation or lies outside an operand's range stops (R94, R56). -/

namespace Sys2Proof

/-! ## Decode of encode -/

@[simp] theorem quadrantOf_quadrantBits (q : Quadrant) : quadrantOf (quadrantBits q) = q := by cases q <;> rfl

theorem quadrantOf_eq_of_bits {x : BitVec 2} {q : Quadrant} (h : x = quadrantBits q) : quadrantOf x = q := by
  rw [h, quadrantOf_quadrantBits]

theorem rescale3Word_fields : ∀ f : BitVec 3,
    opId (3#5 ++ f ++ 0#24) = 3#5 ∧ (3#5 ++ f ++ 0#24 : TableWord).extractLsb' 24 3 = f ∧
    (3#5 ++ f ++ 0#24 : TableWord).extractLsb' 0 24 = 0 := by decide

theorem encodeWord_fields : ∀ m b : Bool,
    opId (12#5 ++ BitVec.ofBool m ++ BitVec.ofBool b ++ 0#25) = 12#5 ∧
    (12#5 ++ BitVec.ofBool m ++ BitVec.ofBool b ++ 0#25 : TableWord).getLsbD 26 = m ∧
    (12#5 ++ BitVec.ofBool m ++ BitVec.ofBool b ++ 0#25 : TableWord).getLsbD 25 = b ∧
    (12#5 ++ BitVec.ofBool m ++ BitVec.ofBool b ++ 0#25 : TableWord).extractLsb' 0 25 = 0 := by decide

theorem runWord_fields : ∀ m : Bool,
    opId (16#5 ++ BitVec.ofBool m ++ 0#26) = 16#5 ∧
    (16#5 ++ BitVec.ofBool m ++ 0#26 : TableWord).getLsbD 26 = m ∧
    (16#5 ++ BitVec.ofBool m ++ 0#26 : TableWord).extractLsb' 0 26 = 0 := by decide

/-- The word of an operation without an operand inside it, taken apart. -/
theorem bareWord_fields : ∀ op : BitVec 5,
    opId (op ++ 0#27) = op ∧ (op ++ 0#27 : TableWord).extractLsb' 0 27 = 0 := by decide

/-- Where the decoder has only the padding left to look at, and finds none, it answers. -/
theorem decode_eq_ok_of_padded {k : Call} {n : Nat} {i j : Instr} (hdecode : decode k = padded k.word n i)
    (hpad : k.word.extractLsb' 0 n = 0) (hi : i = j) : decode k = .ok j := by
  rw [hdecode, padded_of_zero hpad, hi]

section
variable {k : Call} (hc : operand2 k.word ≠ 3)
include hc

theorem decode_muxbit_of_channel (hop : opId k.word = 9#5) :
    decode k = padded k.word 22 (.muxbit k.led (operand2 k.word) (k.word.extractLsb' 22 3) k.wire) :=
  (decode_muxbit hop).trans (if_neg hc)

theorem decode_serchan_of_channel (hop : opId k.word = 10#5) :
    decode k = padded k.word 25 (.serchan k.led (operand2 k.word) k.wire) :=
  (decode_serchan hop).trans (if_neg hc)

end

/-- RESOLVE, by the tag its operand names. -/
theorem decode_resolveOf {k : Call} {q : Quadrant} (hop : opId k.word = 6#5) (hq : quadrantOf (operand2 k.word) = q) :
    decode k = padded k.word 25 (Machine.resolveOf q k.pattern k.led) := by
  rw [decode_resolve hop, hq]
  cases q <;> rfl

/-- RESOLVE's request, for all four tags at once. -/
theorem encode_resolveOf (q : Quadrant) (p l : Nat) : encode (Machine.resolveOf q p l) =
    { Call.ofWord (6#5 ++ quadrantBits q ++ 0#25) with pattern := p, led := l } := by
  cases q <;> rfl

theorem decode_encode_of_resolveOf (q : Quadrant) (p l : Nat) :
    decode (encode (Machine.resolveOf q p l)) = .ok (Machine.resolveOf q p l) := by
  obtain ⟨hop, hq, hpad⟩ := operand2Word_fields 6 (quadrantBits q)
  rw [encode_resolveOf]
  exact decode_eq_ok_of_padded (decode_resolveOf hop (quadrantOf_eq_of_bits hq)) hpad rfl

/-- Settles O56: by operation, the decoder finds in the encoded word the `op_id`, the operands and zero padding. Only
MUXBIT and SERCHAN need well-formedness, to pass the channel check. -/
theorem decodeOfEncode : Obligations.DecodeOfEncode := by
  intro i h
  cases i with
  | unpackR px =>
    obtain ⟨hop, hpx, hpad⟩ := byteWord_fields 0 px
    exact decode_eq_ok_of_padded (decode_unpackR hop) hpad (congrArg Instr.unpackR hpx)
  | unpackG px =>
    obtain ⟨hop, hpx, hpad⟩ := byteWord_fields 1 px
    exact decode_eq_ok_of_padded (decode_unpackG hop) hpad (congrArg Instr.unpackG hpx)
  | unpackB px =>
    obtain ⟨hop, hpx, hpad⟩ := byteWord_fields 2 px
    exact decode_eq_ok_of_padded (decode_unpackB hop) hpad (congrArg Instr.unpackB hpx)
  | rescale3 f =>
    obtain ⟨hop, hf, hpad⟩ := rescale3Word_fields f
    exact decode_eq_ok_of_padded (decode_rescale3 hop) hpad (congrArg Instr.rescale3 hf)
  | rescale2 f =>
    obtain ⟨hop, hf, hpad⟩ := operand2Word_fields 4 f
    exact decode_eq_ok_of_padded (decode_rescale2 hop) hpad (congrArg Instr.rescale2 hf)
  | expand px =>
    obtain ⟨hop, hpx, hpad⟩ := byteWord_fields 5 px
    exact decode_eq_ok_of_padded (decode_expand hop) hpad (congrArg Instr.expand hpx)
  | resolveTl p l => exact decode_encode_of_resolveOf .tl p l
  | resolveBl p l => exact decode_encode_of_resolveOf .bl p l
  | resolveTr p l => exact decode_encode_of_resolveOf .tr p l
  | resolveBr p l => exact decode_encode_of_resolveOf .br p l
  | getcolor p l q =>
    obtain ⟨hop, hq, hpad⟩ := operand2Word_fields 7 (quadrantBits q)
    exact decode_eq_ok_of_padded (decode_getcolor hop) hpad (congrArg (Instr.getcolor p l) (quadrantOf_eq_of_bits hq))
  | reorder r g b =>
    obtain ⟨hop, hr, hg, hb, hpad⟩ := reorderWord_fields r g b
    exact decode_eq_ok_of_padded (decode_reorder hop) hpad (congr (congr (congrArg Instr.reorder hr) hg) hb)
  | muxbit l c b w =>
    obtain ⟨hop, hc, hb, hpad⟩ := muxbitWord_fields c b
    have channel : operand2 (encode (.muxbit l c b w)).word ≠ 3 := hc.trans_ne (by simpa [Instr.wellFormed] using h)
    exact decode_eq_ok_of_padded (decode_muxbit_of_channel channel hop) hpad
      (congr (congr (congrArg (Instr.muxbit l) hc) hb) rfl)
  | serchan l c w =>
    obtain ⟨hop, hc, hpad⟩ := operand2Word_fields 10 c
    have channel : operand2 (encode (.serchan l c w)).word ≠ 3 := hc.trans_ne (by simpa [Instr.wellFormed] using h)
    exact decode_eq_ok_of_padded (decode_serchan_of_channel channel hop) hpad
      (congr (congrArg (Instr.serchan l) hc) rfl)
  | encled p l =>
    obtain ⟨hop, hpad⟩ := bareWord_fields 11
    exact decode_eq_ok_of_padded (decode_encled hop) hpad rfl
  | encode p m b =>
    obtain ⟨hop, hm, hb, hpad⟩ := encodeWord_fields m b
    exact decode_eq_ok_of_padded (decode_encode hop) hpad (congr (congrArg (Instr.encode p) hm) hb)
  | zerobuf =>
    obtain ⟨hop, hpad⟩ := bareWord_fields 13
    exact decode_eq_ok_of_padded (decode_zerobuf hop) hpad rfl
  | persist =>
    obtain ⟨hop, hpad⟩ := bareWord_fields 14
    exact decode_eq_ok_of_padded (decode_persist hop) hpad rfl
  | transmit =>
    obtain ⟨hop, hpad⟩ := bareWord_fields 15
    exact decode_eq_ok_of_padded (decode_transmit hop) hpad rfl
  | run m a =>
    obtain ⟨hop, hm, hpad⟩ := runWord_fields m
    exact decode_eq_ok_of_padded (decode_run hop) hpad (congrArg (Instr.run · a) hm)

/-! ## Encode of decode -/

@[simp] theorem quadrantBits_quadrantOf : ∀ q : BitVec 2, quadrantBits (quadrantOf q) = q := by decide

section
variable {m n : Nat} {x : BitVec m}

/-- The top bits of a word and the field after them are the top bits up to the end of that field. -/
theorem append_field {w : TableWord} {s : Nat} (hx : x = w.extractLsb' (s + n) m) :
    x ++ w.extractLsb' s n = w.extractLsb' s (m + n) :=
  hx ▸ BitVec.extractLsb'_append_extractLsb'_eq_extractLsb' rfl

/-- All bits of a word above its padding, and the padding, are the word. -/
theorem append_padding {w : BitVec (m + n)} (hx : x = w.extractLsb' n m) (hpad : w.extractLsb' 0 n = 0) :
    x ++ 0#n = w := by
  have whole : x ++ w.extractLsb' 0 n = w := hx ▸ BitVec.extractLsb'_append_extractLsb'
  rwa [hpad] at whole

end

/-- A one-bit field is the flag it holds. -/
theorem ofBool_getLsbD (w : TableWord) (n : Nat) : BitVec.ofBool (w.getLsbD n) = w.extractLsb' n 1 := by
  apply BitVec.eq_of_getLsbD_eq
  simp

section
variable {w : TableWord} {op : BitVec 5} (hop : opId w = op)
include hop

theorem byteWord_of_fields (hpad : w.extractLsb' 0 19 = 0) : op ++ operand8 w ++ 0#19 = w :=
  append_padding (append_field hop.symm) hpad

theorem operand2Word_of_fields (hpad : w.extractLsb' 0 25 = 0) : op ++ operand2 w ++ 0#25 = w :=
  append_padding (append_field hop.symm) hpad

theorem rescale3Word_of_fields (hpad : w.extractLsb' 0 24 = 0) : op ++ w.extractLsb' 24 3 ++ 0#24 = w :=
  append_padding (append_field hop.symm) hpad

theorem reorderWord_of_fields (hpad : w.extractLsb' 0 3 = 0) :
    op ++ w.extractLsb' 19 8 ++ w.extractLsb' 11 8 ++ w.extractLsb' 3 8 ++ 0#3 = w :=
  append_padding (append_field (append_field (append_field hop.symm))) hpad

theorem muxbitWord_of_fields (hpad : w.extractLsb' 0 22 = 0) : op ++ operand2 w ++ w.extractLsb' 22 3 ++ 0#22 = w :=
  append_padding (append_field (append_field hop.symm)) hpad

theorem bareWord_of_fields (hpad : w.extractLsb' 0 27 = 0) : op ++ 0#27 = w :=
  append_padding hop.symm hpad

theorem encodeWord_of_fields (hpad : w.extractLsb' 0 25 = 0) :
    op ++ BitVec.ofBool (w.getLsbD 26) ++ BitVec.ofBool (w.getLsbD 25) ++ 0#25 = w := by
  rw [ofBool_getLsbD, ofBool_getLsbD]
  exact append_padding (append_field (append_field hop.symm)) hpad

theorem runWord_of_fields (hpad : w.extractLsb' 0 26 = 0) : op ++ BitVec.ofBool (w.getLsbD 26) ++ 0#26 = w := by
  rw [ofBool_getLsbD]
  exact append_padding (append_field hop.symm) hpad

end

/-- What is read behind zero padding is well formed and has the word, when the candidate is and does. -/
theorem roundTrip_of_padded {k : Call} {n : Nat} {i j : Instr} (h : decode k = .ok j)
    (hdecode : decode k = padded k.word n i) (hwf : i.wellFormed = true)
    (hword : k.word.extractLsb' 0 n = 0 → (encode i).word = k.word) :
    j.wellFormed = true ∧ (encode j).word = k.word := by
  obtain ⟨hpad, rfl⟩ := padded_eq_ok (hdecode.symm.trans h)
  exact ⟨hwf, hword hpad⟩

theorem resolveOf_wellFormed (q : Quadrant) (p l : Nat) : (Machine.resolveOf q p l).wellFormed = true := by
  cases q <;> rfl

/-- The word of an operation with a quadrant tag, from the operand the tag was read from. -/
theorem quadrantWord_of_fields {w : TableWord} {op : BitVec 5} (hop : opId w = op) (hpad : w.extractLsb' 0 25 = 0) :
    op ++ quadrantBits (quadrantOf (operand2 w)) ++ 0#25 = w := by
  rw [quadrantBits_quadrantOf]
  exact operand2Word_of_fields hop hpad

/-! ## What names no operation -/

/-- R94: `op_id` 17 to 31. -/
theorem decode_reserved {k : Call} (h : 17 ≤ (opId k.word).toNat) : decode k = .error .reservedOpId := by
  obtain ⟨n, hn⟩ := Nat.exists_eq_add_of_le' h
  unfold decode
  rw [hn]
  rfl

/-- R94: channel position 3 of MUXBIT and SERCHAN. -/
theorem decode_channelThree {k : Call} (hop : opId k.word = 9#5 ∨ opId k.word = 10#5) (hc : operand2 k.word = 3) :
    decode k = .error .channelThree := by
  rcases hop with hop | hop
  · exact (decode_muxbit hop).trans (if_pos hc)
  · exact (decode_serchan hop).trans (if_pos hc)

theorem operand2_ne_three_of_decode {k : Call} {i : Instr} (h : decode k = .ok i)
    (hop : opId k.word = 9#5 ∨ opId k.word = 10#5) : operand2 k.word ≠ 3 := fun hc => by
  cases (decode_channelThree hop hc).symm.trans h

/-- The 17 `op_id`s of R93, and those R94 reserves. -/
theorem opId_cases : ∀ op : BitVec 5,
    op = 0#5 ∨ op = 1#5 ∨ op = 2#5 ∨ op = 3#5 ∨ op = 4#5 ∨ op = 5#5 ∨ op = 6#5 ∨ op = 7#5 ∨ op = 8#5 ∨
    op = 9#5 ∨ op = 10#5 ∨ op = 11#5 ∨ op = 12#5 ∨ op = 13#5 ∨ op = 14#5 ∨ op = 15#5 ∨ op = 16#5 ∨
    17 ≤ op.toNat := by decide

/-- Settles O57: by `op_id`, the word is put together again from the fields the decoder read and the padding it found
zero. -/
theorem encodeOfDecode : Obligations.EncodeOfDecode := by
  intro k i h
  rcases opId_cases (opId k.word) with hop | hop | hop | hop | hop | hop | hop | hop | hop | hop | hop | hop | hop |
    hop | hop | hop | hop | reserved
  · exact roundTrip_of_padded h (decode_unpackR hop) rfl (byteWord_of_fields hop)
  · exact roundTrip_of_padded h (decode_unpackG hop) rfl (byteWord_of_fields hop)
  · exact roundTrip_of_padded h (decode_unpackB hop) rfl (byteWord_of_fields hop)
  · exact roundTrip_of_padded h (decode_rescale3 hop) rfl (rescale3Word_of_fields hop)
  · exact roundTrip_of_padded h (decode_rescale2 hop) rfl (operand2Word_of_fields hop)
  · exact roundTrip_of_padded h (decode_expand hop) rfl (byteWord_of_fields hop)
  · refine roundTrip_of_padded h (decode_resolveOf hop rfl) (resolveOf_wellFormed ..) fun hpad => ?_
    rw [encode_resolveOf]
    exact quadrantWord_of_fields hop hpad
  · exact roundTrip_of_padded h (decode_getcolor hop) rfl (quadrantWord_of_fields hop)
  · exact roundTrip_of_padded h (decode_reorder hop) rfl (reorderWord_of_fields hop)
  · have channel := operand2_ne_three_of_decode h (.inl hop)
    exact roundTrip_of_padded h (decode_muxbit_of_channel channel hop) (bne_iff_ne.mpr channel)
      (muxbitWord_of_fields hop)
  · have channel := operand2_ne_three_of_decode h (.inr hop)
    exact roundTrip_of_padded h (decode_serchan_of_channel channel hop) (bne_iff_ne.mpr channel)
      (operand2Word_of_fields hop)
  · exact roundTrip_of_padded h (decode_encled hop) rfl (bareWord_of_fields hop)
  · exact roundTrip_of_padded h (decode_encode hop) rfl (encodeWord_of_fields hop)
  · exact roundTrip_of_padded h (decode_zerobuf hop) rfl (bareWord_of_fields hop)
  · exact roundTrip_of_padded h (decode_persist hop) rfl (bareWord_of_fields hop)
  · exact roundTrip_of_padded h (decode_transmit hop) rfl (bareWord_of_fields hop)
  · exact roundTrip_of_padded h (decode_run hop) rfl (runWord_of_fields hop)
  · cases (decode_reserved reserved).symm.trans h

/-! ## Sample words -/

/-- A word is read back from its bits, when it is the whole request that a well-formed operation encodes to. -/
theorem decodeTableWord_of_encode {i : Instr} {w : Nat} (hi : i.wellFormed = true)
    (hw : encode i = Call.ofWord (BitVec.ofNat 32 w)) (hlt : w < 2 ^ 32) : decodeTableWord 32 w = some i := by
  have hdecode : decode (Call.ofWord (BitVec.ofNat 32 w)) = .ok i := hw ▸ decodeOfEncode i hi
  rw [decodeTableWord, if_pos ⟨Nat.le_refl 32, hlt⟩, hdecode]

/-- Settles O60: each word is the encoding of its operation, so decode of encode reads it. -/
theorem sampleWordsDecode : Obligations.SampleWordsDecode :=
  ⟨decodeTableWord_of_encode rfl (by decide) (by decide),
    decodeTableWord_of_encode rfl (by decide) (by decide),
    decodeTableWord_of_encode rfl (by decide) (by decide),
    decodeTableWord_of_encode rfl (by decide) (by decide),
    decodeTableWord_of_encode rfl (by decide) (by decide),
    decodeTableWord_of_encode rfl (by decide) (by decide),
    decodeTableWord_of_encode rfl (by decide) (by decide)⟩

end Sys2Proof

namespace Sys2Proof.Machine

/-- Settles O58: the decoder rejects the word by its fields, and a step passes the rejection on. -/
theorem reservedWordsRefused : Obligations.ReservedWordsRefused := by
  intro k s rest hp
  refine ⟨fun hop => step_of_undecoded hp (decode_reserved hop), fun hop hc => ?_⟩
  have channelRow : opId k.word = 9#5 ∨ opId k.word = 10#5 :=
    hop.imp (BitVec.eq_of_toNat_eq (y := 9#5)) (BitVec.eq_of_toNat_eq (y := 10#5))
  exact step_of_undecoded hp (decode_channelThree channelRow hc)

/-! ## Operands outside their range -/

theorem requireLed_neg {s : State} {led : Nat} (h : s.cfg.ledsPerStrip ≤ led)
    (k : Host.Outcome State Fault Refusal) : requireLed s led k = .fault .ledOutOfRange := if_neg (Nat.not_lt.mpr h)

/-- Settles O55: the checks come in the order channel, configuration, LED, and the first that fails answers. -/
theorem encoderOperandsOutsideRangeStop : Obligations.EncoderOperandsOutsideRangeStop := by
  refine ⟨fun s p l c b w hcfg hl hc => ?_, fun s l b w => ⟨rfl, rfl⟩⟩
  simp only [List.forall_mem_cons]
  exact ⟨(requireChannel_pos hc _).trans ((requireConfig_pos hcfg _).trans (requireLed_neg hl _)),
    (requireChannel_pos hc _).trans ((requireConfig_pos hcfg _).trans (requireLed_neg hl _)),
    (requireConfig_pos hcfg _).trans (requireLed_neg hl _), List.forall_mem_nil _⟩

end Sys2Proof.Machine

/-! SUPPORT. The proofs of the statements of 40_color_expander.md: the fields of a pixel (R111 to R113), their rescaling
(R114, R115), and EXPAND, which composes them (R116 to R121). -/

namespace Sys2Proof.Machine

/-! ## Each operation as an equation -/

section
variable (s : State)

theorem exec_unpackR (px : Byte) : exec (.unpackR px) s = .next { s with result := .field3 (unpackR px) } := rfl

theorem exec_unpackG (px : Byte) : exec (.unpackG px) s = .next { s with result := .field3 (unpackG px) } := rfl

theorem exec_unpackB (px : Byte) : exec (.unpackB px) s = .next { s with result := .field2 (unpackB px) } := rfl

theorem exec_rescale3 (f : BitVec 3) : exec (.rescale3 f) s = .next { s with result := .channel (rescale3 f) } := rfl

theorem exec_rescale2 (f : BitVec 2) : exec (.rescale2 f) s = .next { s with result := .channel (rescale2 f) } := rfl

theorem exec_expand (px : Byte) : exec (.expand px) s = .next { s with result := .color (expandPixel px) } := rfl

end

/-! ## Mask and shift -/

section
variable {mask : Byte} {shift n : Nat} (hmask : mask.toNat = (2 ^ n - 1) * 2 ^ shift) (px : Byte)
include hmask

/-- A byte under the mask of the `n` bits from `shift` up is the field there, in its place. -/
theorem toNat_and_mask : (px &&& mask).toNat = (px.extractLsb' shift n).toNat * 2 ^ shift := by
  rw [BitVec.toNat_and, BitVec.extractLsb'_toNat, hmask]
  apply Nat.eq_of_testBit_eq
  intro i
  rw [Nat.testBit_and, Nat.testBit_mul_two_pow, Nat.testBit_mul_two_pow, Nat.testBit_two_pow_sub_one,
    Nat.testBit_mod_two_pow, Nat.testBit_shiftRight]
  by_cases h : shift ≤ i
  · simp [h, Bool.and_comm]
  · simp [h]

theorem toNat_extractLsb'_eq_div : (px.extractLsb' shift n).toNat = (px &&& mask).toNat / 2 ^ shift := by
  rw [toNat_and_mask hmask, Nat.mul_div_cancel _ (Nat.two_pow_pos shift)]

/-- Masking a field and shifting it down reads the field. -/
theorem maskShift_eq_extractLsb' : (maskShift px mask shift).setWidth n = px.extractLsb' shift n := by
  apply BitVec.eq_of_toNat_eq
  rw [BitVec.toNat_setWidth, maskShift, BitVec.toNat_ushiftRight, Nat.shiftRight_eq_div_pow,
    ← toNat_extractLsb'_eq_div hmask, Nat.mod_eq_of_lt (BitVec.isLt _)]

end

theorem unpackR_eq (px : Byte) : unpackR px = px.extractLsb' 5 3 := maskShift_eq_extractLsb' rfl px

theorem unpackG_eq (px : Byte) : unpackG px = px.extractLsb' 2 3 := maskShift_eq_extractLsb' rfl px

theorem unpackB_eq (px : Byte) : unpackB px = px.extractLsb' 0 2 := maskShift_eq_extractLsb' rfl px

/-- Settles O1: R111's mask is that of the three bits from bit 5 up. -/
theorem unpackRedReadsBits7To5 : Obligations.UnpackRedReadsBits7To5 := by
  intro px s
  rw [exec_unpackR, unpackR_eq]
  exact ⟨rfl, toNat_extractLsb'_eq_div rfl px, decodeOfEncode (.unpackR px) rfl⟩

/-- Settles O2: R112's mask is that of the three bits from bit 2 up. -/
theorem unpackGreenReadsBits4To2 : Obligations.UnpackGreenReadsBits4To2 := by
  intro px s
  rw [exec_unpackG, unpackG_eq]
  exact ⟨rfl, toNat_extractLsb'_eq_div rfl px, decodeOfEncode (.unpackG px) rfl⟩

/-- Settles O3: R113's mask is that of the two lowest bits, which need no shift. -/
theorem unpackBlueReadsBits1To0 : Obligations.UnpackBlueReadsBits1To0 := by
  intro px s
  rw [exec_unpackB, unpackB_eq]
  exact ⟨rfl, (toNat_extractLsb'_eq_div rfl px).trans (Nat.div_one _), decodeOfEncode (.unpackB px) rfl⟩

/-! ## Rescaling -/

/-- R114: the product stays inside 8 bits. -/
theorem toNat_rescale3 (f : BitVec 3) : (rescale3 f).toNat = f.toNat * 32 := by
  have := f.isLt
  rw [rescale3, BitVec.toNat_mul, BitVec.toNat_setWidth, show (32 : Byte).toNat = 32 from rfl]
  omega

/-- R115: the product stays inside 8 bits. -/
theorem toNat_rescale2 (f : BitVec 2) : (rescale2 f).toNat = f.toNat * 64 := by
  have := f.isLt
  rw [rescale2, BitVec.toNat_mul, BitVec.toNat_setWidth, show (64 : Byte).toNat = 64 from rfl]
  omega

theorem toNat_append_zero {m : Nat} (x : BitVec m) (k : Nat) : (x ++ 0#k).toNat = x.toNat * 2 ^ k := by
  rw [BitVec.toNat_append, Nat.shiftLeft_eq, BitVec.toNat_ofNat, Nat.zero_mod, Nat.or_zero]

theorem rescale3_eq_append (f : BitVec 3) : rescale3 f = f ++ 0#5 :=
  BitVec.eq_of_toNat_eq ((toNat_rescale3 f).trans (toNat_append_zero f 5).symm)

theorem rescale2_eq_append (f : BitVec 2) : rescale2 f = f ++ 0#6 :=
  BitVec.eq_of_toNat_eq ((toNat_rescale2 f).trans (toNat_append_zero f 6).symm)

theorem extractLsb'_rescale3 (f : BitVec 3) : (rescale3 f).extractLsb' 5 3 = f := by
  rw [rescale3_eq_append]
  exact BitVec.extractLsb'_append_eq_left

theorem extractLsb'_rescale2 (f : BitVec 2) : (rescale2 f).extractLsb' 6 2 = f := by
  rw [rescale2_eq_append]
  exact BitVec.extractLsb'_append_eq_left

/-- Settles O4: the product is the field with five zeros below it. -/
theorem rescale3MultipliesBy32 : Obligations.Rescale3MultipliesBy32 := by
  intro f s
  have low : (rescale3 f).extractLsb' 0 5 = 0 := by
    rw [rescale3_eq_append]
    exact BitVec.extractLsb'_append_eq_right
  exact ⟨rescale3 f, exec_rescale3 s f, toNat_rescale3 f, extractLsb'_rescale3 f, low,
    decodeOfEncode (.rescale3 f) rfl⟩

/-- Settles O5: the product is the field with six zeros below it. -/
theorem rescale2MultipliesBy64 : Obligations.Rescale2MultipliesBy64 := by
  intro f s
  have low : (rescale2 f).extractLsb' 0 6 = 0 := by
    rw [rescale2_eq_append]
    exact BitVec.extractLsb'_append_eq_right
  exact ⟨rescale2 f, exec_rescale2 s f, toNat_rescale2 f, extractLsb'_rescale2 f, low,
    decodeOfEncode (.rescale2 f) rfl⟩

/-! ## EXPAND -/

/-- Settles O6: the channels of `expandPixel` are this composition by definition. -/
theorem expandIsUnpackThenRescale : Obligations.ExpandIsUnpackThenRescale := by
  intro px s
  exact ⟨unpackR px, unpackG px, unpackB px, expandPixel px, exec_unpackR s px, exec_unpackG s px, exec_unpackB s px,
    exec_rescale3 s _, exec_rescale3 s _, exec_rescale2 s _, exec_expand s px, decodeOfEncode (.expand px) rfl⟩

section
variable (px : Byte)

theorem expandPixel_red : (expandPixel px).red = rescale3 (px.extractLsb' 5 3) := by rw [expandPixel, unpackR_eq]

theorem expandPixel_green : (expandPixel px).green = rescale3 (px.extractLsb' 2 3) := by rw [expandPixel, unpackG_eq]

theorem expandPixel_blue : (expandPixel px).blue = rescale2 (px.extractLsb' 0 2) := by rw [expandPixel, unpackB_eq]

/-- A channel is its field under the mask, moved to the top of the byte. -/
theorem expandPixel_closedForm :
    expandPixel px = ⟨px &&& 0xE0, (px &&& 0x1C) <<< 3, (px &&& 0x03) <<< 6⟩ := by
  have red : (px &&& 0xE0 : Byte).toNat = (px.extractLsb' 5 3).toNat * 2 ^ 5 := toNat_and_mask rfl px
  have green : (px &&& 0x1C : Byte).toNat = (px.extractLsb' 2 3).toNat * 2 ^ 2 := toNat_and_mask rfl px
  have blue : (px &&& 0x03 : Byte).toNat = (px.extractLsb' 0 2).toNat * 2 ^ 0 := toNat_and_mask rfl px
  rw [expandPixel, unpackR_eq, unpackG_eq, unpackB_eq]
  congr 1 <;> apply BitVec.eq_of_toNat_eq
  · exact (toNat_rescale3 _).trans red.symm
  · rw [toNat_rescale3, BitVec.toNat_shiftLeft, Nat.shiftLeft_eq, green]
    omega
  · rw [toNat_rescale2, BitVec.toNat_shiftLeft, Nat.shiftLeft_eq, blue]
    omega

end

/-- Settles O7: EXPAND hands back `expandPixel`, which has this closed form. -/
theorem expandClosedForm : Obligations.ExpandClosedForm := by
  intro px s
  rw [exec_expand, expandPixel_closedForm]

/-- R119: the values of a red and of a green channel. -/
theorem toNat_rescale3_mem : ∀ f : BitVec 3, (rescale3 f).toNat ∈ [0, 32, 64, 96, 128, 160, 192, 224] := by decide

/-- R119: the values of a blue channel. -/
theorem toNat_rescale2_mem : ∀ f : BitVec 2, (rescale2 f).toNat ∈ [0, 64, 128, 192] := by decide

theorem rescale3_injective : Function.Injective rescale3 := Function.LeftInverse.injective extractLsb'_rescale3

theorem rescale2_injective : Function.Injective rescale2 := Function.LeftInverse.injective extractLsb'_rescale2

/-- The three fields are the whole pixel. -/
theorem append_pixelFields (px : Byte) : px.extractLsb' 5 3 ++ px.extractLsb' 2 3 ++ px.extractLsb' 0 2 = px := by
  rw [BitVec.extractLsb'_append_extractLsb'_eq_extractLsb' (show 5 = 2 + 3 from rfl),
    BitVec.extractLsb'_append_extractLsb'_eq_extractLsb' (show 2 = 0 + 2 from rfl)]
  exact BitVec.extractLsb'_eq_self

/-- R120: each channel gives back its field, and the fields give back the pixel. -/
theorem expandPixel_injective : Function.Injective expandPixel := by
  intro px py h
  have red := congrArg Color.red h
  have green := congrArg Color.green h
  have blue := congrArg Color.blue h
  rw [expandPixel_red, expandPixel_red] at red
  rw [expandPixel_green, expandPixel_green] at green
  rw [expandPixel_blue, expandPixel_blue] at blue
  rw [← append_pixelFields px, rescale3_injective red, rescale3_injective green, rescale2_injective blue,
    append_pixelFields]

/-- Settles O8: each channel is the rescaling of its own field, so it has the scale and the values of R119, and depends
on nothing else. -/
theorem expandScalesExactlyAndIsInjective : Obligations.ExpandScalesExactlyAndIsInjective := by
  refine ⟨expandPixel, fun px s => exec_expand s px, fun px => ?scale, fun px py => ?ownField, expandPixel_injective⟩
  case scale =>
    rw [expandPixel_red, expandPixel_green, expandPixel_blue]
    exact ⟨toNat_rescale3_mem _, toNat_rescale3_mem _, toNat_rescale2_mem _, toNat_rescale3 _, toNat_rescale3 _,
      toNat_rescale2 _⟩
  case ownField =>
    simp only [expandPixel_red, expandPixel_green, expandPixel_blue]
    exact ⟨congrArg rescale3, congrArg rescale3, congrArg rescale2⟩

/-! ## Purity -/

/-- Settles O9: the equation of each operation holds in every state, and its result names the operand alone. -/
theorem expanderFamilyIsPure : Obligations.ExpanderFamilyIsPure :=
  ⟨fun px => ⟨.field3 (unpackR px), fun s => exec_unpackR s px⟩,
    fun px => ⟨.field3 (unpackG px), fun s => exec_unpackG s px⟩,
    fun px => ⟨.field2 (unpackB px), fun s => exec_unpackB s px⟩,
    fun f => ⟨.channel (rescale3 f), fun s => exec_rescale3 s f⟩,
    fun f => ⟨.channel (rescale2 f), fun s => exec_rescale2 s f⟩,
    fun px => ⟨.color (expandPixel px), fun s => exec_expand s px⟩⟩

end Sys2Proof.Machine

/-! SUPPORT. The proofs of the statements of 41_quadrant_mapper.md: the range check and the four formulas of RESOLVE
(R131 to R136), where their results lie (R138 to R141), and GETCOLOR (R142, R143). -/

namespace Sys2Proof

/-! ## What R9 says of the geometry -/

section
variable {c : Config} (h : c.WellFormed)
include h

theorem Config.WellFormed.two_mul_half_imgRows : 2 * (c.imgRows / 2) = c.imgRows :=
  have ⟨rowsEven, _⟩ := h
  Nat.mul_div_cancel' (Nat.dvd_of_mod_eq_zero rowsEven)

theorem Config.WellFormed.two_mul_half_imgCols : 2 * (c.imgCols / 2) = c.imgCols :=
  have ⟨_, colsEven, _⟩ := h
  Nat.mul_div_cancel' (Nat.dvd_of_mod_eq_zero colsEven)

theorem Config.WellFormed.ledsPerStrip_le : c.ledsPerStrip ≤ c.imgRows / 2 := by
  obtain ⟨-, -, -, -, leds, -⟩ := h
  exact leds

theorem Config.WellFormed.bitmatrixPatterns_le : c.bitmatrixPatterns ≤ c.imgCols := by
  obtain ⟨-, -, -, -, -, patterns, -⟩ := h
  exact patterns

end

end Sys2Proof

namespace Sys2Proof.Machine

/-! ## One formula for the four quadrants

R132: the row depends on top or bottom and on the LED, the column on left or right and on the pattern. -/

/-- The row of LED `led` in a quadrant (R132). -/
def quadrantRow (c : Config) (q : Quadrant) (led : Nat) : Nat :=
  match q with
  | .tl | .tr => topRow c led
  | .bl | .br => bottomRow c led

/-- The column of a pattern in a quadrant (R132). -/
def quadrantCol (c : Config) (q : Quadrant) (pattern : Nat) : Nat :=
  match q with
  | .tl | .bl => pattern
  | .tr | .br => rightCol c pattern

theorem resolve_eq_checked (c : Config) (q : Quadrant) (p l : Nat) :
    resolve c q p l = checked c p l ⟨quadrantRow c q l, quadrantCol c q p⟩ := by
  cases q <;> rfl

theorem resolve_eq_some_iff {c : Config} {q : Quadrant} {p l : Nat} {x : Coord} :
    resolve c q p l = some x ↔
      (l < c.ledsPerStrip ∧ p < c.bitmatrixPatterns) ∧ ⟨quadrantRow c q l, quadrantCol c q p⟩ = x := by
  rw [resolve_eq_checked, checked, Option.ite_none_left_eq_some, Option.some.injEq, isAbsent, not_or, Nat.not_le,
    Nat.not_le]

/-- A RESOLVE with both indices in range. -/
theorem exec_resolveOf_inRange {s : State} (h : s.cfg.WellFormed) {p l : Nat} (hl : l < s.cfg.ledsPerStrip)
    (hp : p < s.cfg.bitmatrixPatterns) (q : Quadrant) :
    exec (resolveOf q p l) s =
      .next { s with result := .coord (some ⟨quadrantRow s.cfg q l, quadrantCol s.cfg q p⟩) } := by
  rw [exec_resolveOf h, resolve_eq_some_iff.mpr ⟨⟨hl, hp⟩, rfl⟩, State.withResult]

/-- A RESOLVE with an index out of range. -/
theorem exec_resolveOf_absent {s : State} (h : s.cfg.WellFormed) {p l : Nat} (habsent : isAbsent s.cfg p l)
    (q : Quadrant) : exec (resolveOf q p l) s = .next { s with result := .coord none } := by
  rw [exec_resolveOf h, resolve_of_absent habsent, State.withResult]

/-- What a RESOLVE hands back is what `resolve` computes. -/
theorem resolve_of_exec {s : State} (h : s.cfg.WellFormed) {q : Quadrant} {p l : Nat} {rc : Option Coord}
    (hexec : exec (resolveOf q p l) s = .next { s with result := .coord rc }) : resolve s.cfg q p l = rc := by
  rw [exec_resolveOf h] at hexec
  exact Result.coord.inj (congrArg State.result (Host.Outcome.next.inj hexec))

/-! ## The four operations -/

/-- Settles O10: the range check alone decides between absent and present. -/
theorem resolveRangeCheck : Obligations.ResolveRangeCheck := by
  intro s q p l h
  exact ⟨fun habsent => exec_resolveOf_absent h habsent q, fun ⟨hl, hp⟩ => ⟨_, exec_resolveOf_inRange h hl hp q⟩⟩

/-- Settles O11: the top row and the two indices add up to the centre line. -/
theorem resolveTopLeft : Obligations.ResolveTopLeft := by
  intro s p l h
  exact ⟨fun ⟨hl, hp⟩ => ⟨topRow s.cfg l, topRow_add h hl, exec_resolveOf_inRange h hl hp .tl⟩,
    fun habsent => exec_resolveOf_absent h habsent .tl, decode_encode_of_resolveOf .tl p l⟩

/-- Settles O12: R134's formula is the model's bottom row. -/
theorem resolveBottomLeft : Obligations.ResolveBottomLeft := by
  intro s p l h
  exact ⟨fun ⟨hl, hp⟩ => exec_resolveOf_inRange h hl hp .bl,
    fun habsent => exec_resolveOf_absent h habsent .bl, decode_encode_of_resolveOf .bl p l⟩

/-- Settles O13: the top row of R133 with the right column. -/
theorem resolveTopRight : Obligations.ResolveTopRight := by
  intro s p l h
  exact ⟨fun ⟨hl, hp⟩ => ⟨topRow s.cfg l, topRow_add h hl, exec_resolveOf_inRange h hl hp .tr⟩,
    fun habsent => exec_resolveOf_absent h habsent .tr, decode_encode_of_resolveOf .tr p l⟩

/-- Settles O14: the bottom row of R134 with the right column. -/
theorem resolveBottomRight : Obligations.ResolveBottomRight := by
  intro s p l h
  exact ⟨fun ⟨hl, hp⟩ => exec_resolveOf_inRange h hl hp .br,
    fun habsent => exec_resolveOf_absent h habsent .br, decode_encode_of_resolveOf .br p l⟩

/-! ## Rows -/

theorem quadrantRow_of_top (c : Config) (l : Nat) : ∀ top ∈ [Quadrant.tl, .tr], quadrantRow c top l = topRow c l := by
  simp [quadrantRow]

theorem quadrantRow_of_bottom (c : Config) (l : Nat) :
    ∀ bottom ∈ [Quadrant.bl, .br], quadrantRow c bottom l = bottomRow c l := by
  simp [quadrantRow]

/-- R138: in a quadrant a row belongs to one LED. -/
theorem quadrantRow_injOn {c : Config} (h : c.WellFormed) {l l' : Nat} (hl : l < c.ledsPerStrip)
    (hl' : l' < c.ledsPerStrip) {q : Quadrant} (e : quadrantRow c q l = quadrantRow c q l') : l = l' := by
  cases q with
  | tl | tr =>
    have sum := topRow_add h hl
    have sum' := topRow_add h hl'
    simp only [quadrantRow] at e
    omega
  | bl | br => exact Nat.add_left_cancel e

/-- R140: both halves of the rows lie inside the image. -/
theorem quadrantRow_lt {c : Config} (h : c.WellFormed) {l : Nat} (hl : l < c.ledsPerStrip) (q : Quadrant) :
    quadrantRow c q l < c.imgRows := by
  have halves := h.two_mul_half_imgRows
  have fits := h.ledsPerStrip_le
  cases q with
  | tl | tr =>
    have sum := topRow_add h hl
    simp only [quadrantRow]
    omega
  | bl | br =>
    simp only [quadrantRow, bottomRow]
    omega

/-! ## Columns -/

theorem quadrantCol_of_right (c : Config) (p : Nat) :
    ∀ right ∈ [Quadrant.tr, .br], quadrantCol c right p = rightCol c p := by
  simp [quadrantCol]

theorem rightCol_lt {c : Config} {p : Nat} (hp : p < c.bitmatrixPatterns) : rightCol c p < c.bitmatrixPatterns :=
  Nat.mod_lt _ (Nat.zero_lt_of_lt hp)

/-- R138: the offset to the middle column cancels modulo the number of patterns. -/
theorem rightCol_injOn {c : Config} {p p' : Nat} (hp : p < c.bitmatrixPatterns) (hp' : p' < c.bitmatrixPatterns)
    (e : rightCol c p = rightCol c p') : p = p' :=
  Nat.ModEq.eq_of_lt_of_lt (Nat.ModEq.add_left_cancel' _ e) hp hp'

/-- R138: in a quadrant a column belongs to one pattern. -/
theorem quadrantCol_injOn {c : Config} {p p' : Nat} (hp : p < c.bitmatrixPatterns) (hp' : p' < c.bitmatrixPatterns)
    {q : Quadrant} (e : quadrantCol c q p = quadrantCol c q p') : p = p' := by
  cases q with
  | tl | bl => exact e
  | tr | br => exact rightCol_injOn hp hp' e

/-- R140: the columns of every quadrant are among the first `BITMATRIX_PATTERNS` of the image. -/
theorem quadrantCol_lt {c : Config} (h : c.WellFormed) {p : Nat} (hp : p < c.bitmatrixPatterns) (q : Quadrant) :
    quadrantCol c q p < c.imgCols := by
  refine Nat.lt_of_lt_of_le ?_ h.bitmatrixPatterns_le
  cases q with
  | tl | bl => exact hp
  | tr | br => exact rightCol_lt hp

/-- R141, case (b): an offset that is a whole number of turns moves no column. -/
theorem rightCol_of_dvd {c : Config} (hdvd : c.bitmatrixPatterns ∣ c.imgCols / 2) {p : Nat}
    (hp : p < c.bitmatrixPatterns) : rightCol c p = p := by
  rw [rightCol, Nat.add_mod, Nat.mod_eq_zero_of_dvd hdvd, Nat.zero_add, Nat.mod_mod, Nat.mod_eq_of_lt hp]

/-! ## Where the results lie -/

/-- Settles O15: a present result is in range, and its row and its column are inside the image. -/
theorem resolvedCoordinatesInImage : Obligations.ResolvedCoordinatesInImage := by
  intro s q p l h
  refine ⟨resolve s.cfg q p l, exec_resolveOf h q p l, fun x hx => ?_⟩
  obtain ⟨⟨hl, hp⟩, rfl⟩ := resolve_eq_some_iff.mp hx
  exact ⟨quadrantRow_lt h hl q, quadrantCol_lt h hp q⟩

/-- Settles O16: the row gives back the LED and the column the pattern. -/
theorem resolveInjectiveInQuadrant : Obligations.ResolveInjectiveInQuadrant := by
  intro s q p l p' l' h hl hp hl' hp'
  refine ⟨_, _, exec_resolveOf_inRange h hl hp q, exec_resolveOf_inRange h hl' hp' q, fun e => ?_⟩
  obtain ⟨row, col⟩ := Coord.mk.inj e
  exact ⟨quadrantCol_injOn hp hp' col, quadrantRow_injOn h hl hl' row⟩

/-- R141, case (b): the right quadrant of a half resolves as the left one does. -/
theorem resolve_right_of_dvd {c : Config} (hdvd : c.bitmatrixPatterns ∣ c.imgCols / 2) (p l : Nat) :
    resolve c .tr p l = resolve c .tl p l ∧ resolve c .br p l = resolve c .bl p l := by
  by_cases habsent : isAbsent c p l
  · simp only [resolve_of_absent habsent, and_self]
  · have hp : p < c.bitmatrixPatterns := Nat.not_le.mp fun out => habsent (.inr out)
    simp only [resolve_of_present habsent, rightCol_of_dvd hdvd hp, and_self]

/-- Two rows, two columns, one LED and two patterns: the right quadrants see the two columns swapped. -/
def twoByTwo : State := { State.reset with cfg := Config.withDefaultLanes 2 2 1 2 [.tl] }

theorem twoByTwo_wellFormed : twoByTwo.cfg.WellFormed := by decide

/-- R139: a left and a right quadrant share a pixel, for different patterns. -/
theorem twoByTwo_shares_pixel :
    exec (.resolveTl 1 0) twoByTwo = .next { twoByTwo with result := .coord (some ⟨0, 1⟩) } ∧
    exec (.resolveTr 0 0) twoByTwo = .next { twoByTwo with result := .coord (some ⟨0, 1⟩) } :=
  ⟨exec_resolveOf_inRange twoByTwo_wellFormed (by decide) (by decide) .tl,
    exec_resolveOf_inRange twoByTwo_wellFormed (by decide) (by decide) .tr⟩

/-- Settles O17: top rows are counted up from the centre line and bottom rows down from it, while left and right columns
are only a rotation apart. -/
theorem topAndBottomRowsNeverMeet : Obligations.TopAndBottomRowsNeverMeet := by
  refine ⟨fun s p l p' l' h hl hp hl' hp' top htop bottom hbottom => ?rows, fun s p l h hdvd => ?samePattern,
    twoByTwo, 1, 0, 0, ⟨0, 1⟩, twoByTwo_wellFormed, Nat.one_ne_zero, twoByTwo_shares_pixel⟩
  case rows =>
    refine ⟨_, _, exec_resolveOf_inRange h hl hp top, exec_resolveOf_inRange h hl' hp' bottom, ?_⟩
    have sum := topRow_add h hl
    simp only [quadrantRow_of_top s.cfg l top htop, quadrantRow_of_bottom s.cfg l' bottom hbottom, bottomRow]
    omega
  case samePattern =>
    obtain ⟨top, bottom⟩ := resolve_right_of_dvd hdvd p l
    exact ⟨resolve s.cfg .tl p l, resolve s.cfg .bl p l, exec_resolveOf h .tl p l, top ▸ exec_resolveOf h .tr p l,
      exec_resolveOf h .bl p l, bottom ▸ exec_resolveOf h .br p l⟩

/-! ## The columns of the right quadrants -/

section
variable {c : Config} (h : c.WellFormed) (hall : c.bitmatrixPatterns = c.imgCols) {p : Nat} (hp : p < c.imgCols)
include h hall hp

/-- R141, case (a): the columns start at the middle one and wrap once. -/
theorem rightCol_wraps :
    rightCol c p = if p < c.imgCols / 2 then c.imgCols / 2 + p else p - c.imgCols / 2 := by
  have halves := h.two_mul_half_imgCols
  rw [rightCol, hall]
  split
  · exact Nat.mod_eq_of_lt (by omega)
  · rw [Nat.mod_eq_sub_mod (by omega), Nat.mod_eq_of_lt (by omega)]
    omega

/-- R141, case (a): a rotation by half the columns undoes itself. -/
theorem rightCol_rightCol : rightCol c (rightCol c p) = p := by
  rw [rightCol, rightCol, hall, Nat.add_mod_mod, ← Nat.add_assoc, ← Nat.two_mul, h.two_mul_half_imgCols,
    Nat.add_mod_left, Nat.mod_eq_of_lt hp]

end

/-- R141, case (c). -/
theorem rightCol_of_eight_six {c : Config} (hcols : c.imgCols = 8) (hpatterns : c.bitmatrixPatterns = 6) :
    ∀ p < 6, rightCol c p = [4, 5, 0, 1, 2, 3].getD p 0 := by
  simp only [rightCol, hcols, hpatterns]
  decide

/-- Settles O18: the rotation of case (a) is its own inverse, so each column has the one pattern it sends it to. -/
theorem rightColumnsWrap : Obligations.RightColumnsWrap := by
  refine ⟨fun s p l h hall hl hp => ?wrap, fun s l col h hall hl hcol right hright => ?unique,
    fun s p l h hcols hpatterns hl hp => ?sixOfEight⟩
  case wrap =>
    have hp' : p < s.cfg.bitmatrixPatterns := hall ▸ hp
    exact ⟨_, _, exec_resolveOf_inRange h hl hp' .tr, exec_resolveOf_inRange h hl hp' .br,
      rightCol_wraps h hall hp, rfl⟩
  case unique =>
    have pattern : rightCol s.cfg col < s.cfg.bitmatrixPatterns := rightCol_lt (hall ▸ hcol)
    refine ⟨rightCol s.cfg col, ⟨hall ▸ pattern, quadrantRow s.cfg right l, ?_⟩, ?_⟩
    · rw [exec_resolveOf_inRange h hl pattern, quadrantCol_of_right s.cfg _ right hright,
        rightCol_rightCol h hall hcol]
    · rintro p ⟨hp, row, hexec⟩
      obtain ⟨-, e⟩ := resolve_eq_some_iff.mp (resolve_of_exec h hexec)
      obtain ⟨-, hcol'⟩ := Coord.mk.inj e
      rw [← hcol', quadrantCol_of_right s.cfg p right hright, rightCol_rightCol h hall hp]
  case sixOfEight =>
    have hp' : p < s.cfg.bitmatrixPatterns := hpatterns ▸ hp
    have col := rightCol_of_eight_six hcols hpatterns p hp
    exact ⟨_, _, exec_resolveOf_inRange h hl hp' .tr, exec_resolveOf_inRange h hl hp' .br, col, col⟩

/-! ## GETCOLOR -/

/-- R142, where the coordinate is absent. -/
theorem getColor_of_resolve_none {c : Config} {img : Memory} {p l : Nat} {q : Quadrant}
    (h : resolve c q p l = none) : getColor c img p l q = black := by
  simp only [getColor, h]

/-- Settles O19: GETCOLOR's colour by the outcome of RESOLVE. -/
theorem getcolorIsResolveThenExpand : Obligations.GetcolorIsResolveThenExpand := by
  intro s p l q h
  refine ⟨resolve s.cfg q p l, getColor s.cfg s.img p l q, exec_resolveOf h q p l, exec_getcolor h p l q,
    getColor_of_resolve_none, fun x hx => ?_, decodeOfEncode (.getcolor p l q) rfl⟩
  rw [exec_expand, getColor_of_resolve hx, imgRead]

/-- Settles O21: an index out of range makes RESOLVE absent and so GETCOLOR black. -/
theorem getcolorBlackOutOfRange : Obligations.GetcolorBlackOutOfRange := by
  intro s p l q h habsent
  rw [exec_getcolor h, getColor_of_resolve_none (resolve_of_absent habsent q), black, State.withResult]

end Sys2Proof.Machine

/-! SUPPORT. The proofs of the statements of 42_bitstream_encoder.md: REORDER (R152), MUXBIT and SERCHAN on one channel
position (R156 to R159), ENCLED on one LED (R160), and ENCODE on a whole pattern (R164 to R172). -/

namespace Sys2Proof.Machine

/-! ## REORDER -/

theorem exec_reorder (s : State) (r g b : Byte) :
    exec (.reorder r g b) s = .next { s with result := .wire (reorderColor ⟨r, g, b⟩) } := rfl

/-- Settles O22: the wire-order table names green, red, blue. -/
theorem reorderPutsGreenFirst : Obligations.ReorderPutsGreenFirst :=
  fun r g b s => ⟨exec_reorder s r g b, decodeOfEncode (.reorder r g b) rfl⟩

/-! ## A loop of operations -/

theorem execAll_pair {i j : Instr} {s t u : State} (hi : exec i s = .next t) (hj : exec j t = .next u) :
    execAll [i, j] s = .next u := by
  simp only [execAll, hi, hj]

section
variable {α : Type} {op : α → Instr} {s : State} {l : List α}

/-- An operation that stops is the loop of operations that all stop in the same way: the first one stops the loop. -/
theorem exec_eq_execAll_of_stop {i : Instr} {o : Host.Outcome State Fault Refusal} (hi : exec i s = o)
    (hop : ∀ x ∈ l, exec (op x) s = o) (ho : ∀ t, o ≠ .next t) (hl : l ≠ []) :
    exec i s = execAll (l.map op) s := by
  obtain ⟨x, l, rfl⟩ := List.exists_cons_of_ne_nil hl
  rw [hi, List.map_cons, execAll, hop x List.mem_cons_self]
  cases o with
  | next t => exact absurd rfl (ho t)
  | fault r => rfl
  | refused r => rfl

/-- Where every operation of a loop only changes `BUF`, in a way that the configuration and the image fix, the loop
makes these changes in turn. -/
theorem execAll_map_of_withBuf {c : Config} {img : Memory} {f : Memory → α → Memory}
    (hop : ∀ x ∈ l, ∀ t : State, t.cfg = c → t.img = img → exec (op x) t = .next (t.withBuf (f t.buf x)))
    (hc : s.cfg = c) (himg : s.img = img) :
    execAll (l.map op) s =
      .next { s with buf := l.foldl f s.buf, result := if l.isEmpty then s.result else .nothing } := by
  induction l generalizing s with
  | nil => rfl
  | cons x l ih =>
    have rest := ih (s := s.withBuf (f s.buf x)) (fun y hy => hop y (List.mem_cons_of_mem x hy)) hc himg
    rw [List.map_cons, execAll, hop x List.mem_cons_self s hc himg]
    simpa [State.withBuf] using rest

end

/-! ## An LED outside the strip (R156, R158, R160) -/

section
variable {s : State} (h : s.cfg.WellFormed) {led : Nat} (hl : s.cfg.ledsPerStrip ≤ led)
include h hl

theorem exec_muxbit_ledOutOfRange {c : BitVec 2} (hc : c ≠ 3) (i : BitVec 3) (w : StripBytes) :
    exec (.muxbit led c i w) s = .fault .ledOutOfRange :=
  (requireChannel_pos hc _).trans ((requireConfig_pos h _).trans (requireLed_neg hl _))

theorem exec_serchan_ledOutOfRange {c : BitVec 2} (hc : c ≠ 3) (w : StripBytes) :
    exec (.serchan led c w) s = .fault .ledOutOfRange :=
  (requireChannel_pos hc _).trans ((requireConfig_pos h _).trans (requireLed_neg hl _))

theorem exec_encled_ledOutOfRange (p : Nat) : exec (.encled p led) s = .fault .ledOutOfRange :=
  (requireConfig_pos h _).trans (requireLed_neg hl _)

end

/-! ## MUXBIT and SERCHAN -/

/-- Settles O24: the byte ORed in is `muxByte`, whose bits are known one by one. -/
theorem muxbitOrsOneBitPerStrip : Obligations.MuxbitOrsOneBitPerStrip := by
  intro s led c i w h hl hc
  refine ⟨muxBit s.cfg w.get led c.toNat i.toNat s.buf, muxByte s.cfg w.get i.toNat, exec_muxbit h hl hc i w,
    fun p _ => ?_, muxBit_read s.cfg w.get led c.toNat i.toNat s.buf,
    decodeOfEncode (.muxbit led c i w) (bne_iff_ne.mpr hc)⟩
  rw [muxByte_getLsbD, decide_eq_true_eq]

/-- R158's loop, where it does not stop. -/
theorem execAll_muxbits {s : State} (h : s.cfg.WellFormed) {led : Nat} (hl : led < s.cfg.ledsPerStrip) {c : BitVec 2}
    (hc : c ≠ 3) (w : StripBytes) :
    execAll ((List.range 8).map fun i => Instr.muxbit led c (BitVec.ofNat 3 i) w) s =
      .next (s.withBuf (serChan s.cfg w.get led c.toNat s.buf)) := by
  refine execAll_map_of_withBuf (f := fun b i => muxBit s.cfg w.get led c.toNat i b) (fun i hi t hcfg _ => ?_) rfl rfl
  have index : (BitVec.ofNat 3 i).toNat = i := Nat.mod_eq_of_lt (List.mem_range.mp hi)
  rw [exec_muxbit (hcfg ▸ h) (hcfg ▸ hl) hc, hcfg, index]

/-- R158's loop, with its stops: the checks of SERCHAN are those of each of its MUXBITs. -/
theorem exec_serchan_eq_muxbits (s : State) (led : Nat) (c : BitVec 2) (w : StripBytes) :
    exec (.serchan led c w) s = execAll ((List.range 8).map fun i => Instr.muxbit led c (BitVec.ofNat 3 i) w) s := by
  have eight : List.range 8 ≠ [] := by decide
  by_cases hc : c = 3
  · exact exec_eq_execAll_of_stop (o := .refused .channelThree) (if_pos hc) (fun _ _ => if_pos hc) (fun _ => nofun)
      eight
  by_cases h : s.cfg.WellFormed
  · rcases Nat.lt_or_ge led s.cfg.ledsPerStrip with hl | hl
    · rw [exec_serchan h hl hc, execAll_muxbits h hl hc]
    · exact exec_eq_execAll_of_stop (exec_serchan_ledOutOfRange h hl hc w)
        (fun _ _ => exec_muxbit_ledOutOfRange h hl hc _ w) (fun _ => nofun) eight
  · exact exec_eq_execAll_of_stop (exec_serchan_illFormed h hc led w)
      (fun _ _ => exec_muxbit_illFormed h hc led _ w) (fun _ => nofun) eight

/-- SERCHAN on its four bytes (R159). -/
theorem serChan_read_bufIndex (c : Config) (wire : Nat → Byte) (led ch : Nat) (b : Memory) {j : Nat} (hj : j < 4) :
    (serChan c wire led ch b).read (bufIndex led ch j) = b.read (bufIndex led ch j) ||| closedPair c wire j := by
  have inside : bufIndex led ch 0 ≤ bufIndex led ch j ∧ bufIndex led ch j < bufIndex led ch 4 := by
    unfold bufIndex
    omega
  have pair : bufIndex led ch j - bufIndex led ch 0 = j := Nat.add_sub_cancel_left _ j
  rw [serChan_read, if_pos inside, pair]

/-- SERCHAN on every other byte (R158). -/
theorem serChan_read_of_outside (c : Config) (wire : Nat → Byte) {led ch a : Nat} (b : Memory)
    (h : a < bufIndex led ch 0 ∨ bufIndex led ch 4 ≤ a) : (serChan c wire led ch b).read a = b.read a := by
  rw [serChan_read, if_neg (by omega)]

/-- Settles O25: SERCHAN is its loop, stops included, and a byte that is none of the four lies below or above them. -/
theorem serchanIsEightMuxbits : Obligations.SerchanIsEightMuxbits := by
  refine ⟨exec_serchan_eq_muxbits, fun s led c w h hl hc => ⟨_, exec_serchan h hl hc w, fun a ha => ?_⟩,
    fun led c w hc => decodeOfEncode (.serchan led c w) (bne_iff_ne.mpr hc)⟩
  refine serChan_read_of_outside s.cfg w.get s.buf ?_
  have := ha (a - bufIndex led c.toNat 0)
  unfold bufIndex at *
  omega

/-- Settles O26: what a read gives after `serChan`, inside its four bytes and outside. -/
theorem serchanClosedForm : Obligations.SerchanClosedForm := by
  intro s led c w h hl hc
  exact ⟨_, exec_serchan h hl hc w, fun j hj => serChan_read_bufIndex s.cfg w.get led c.toNat s.buf hj,
    fun a ha => serChan_read_of_outside s.cfg w.get s.buf ha⟩

/-! ## ENCLED -/

/-- The channel positions of ENCLED, as operands of SERCHAN. -/
theorem channel_of_mem_range : ∀ ch ∈ List.range 3, BitVec.ofNat 2 ch ≠ 3 ∧ (BitVec.ofNat 2 ch).toNat = ch := by decide

/-- SERCHAN's operand inside ENCLED holds the wire bytes of all strips, since there are at most four (R29). -/
theorem serChan_stripBytes {c : Config} (h : c.WellFormed) (img : Memory) (p led ch : Nat) (b : Memory) :
    serChan c (StripBytes.ofFn fun k => wireByte c img p led k ch).get led ch b =
      serChan c (fun k => (wires c img p led k).get ch) led ch b := by
  obtain ⟨-, -, strips, -⟩ := h
  exact serChan_congr (fun k hk => stripBytes_get_ofFn _ (Nat.lt_of_lt_of_le hk strips)) led ch b

/-- R160's loop, where it does not stop. -/
theorem execAll_serchans {s : State} (h : s.cfg.WellFormed) {led : Nat} (hl : led < s.cfg.ledsPerStrip) (p : Nat) :
    execAll ((List.range 3).map fun c =>
        Instr.serchan led (BitVec.ofNat 2 c) (StripBytes.ofFn fun k => wireByte s.cfg s.img p led k c)) s =
      .next (s.withBuf (encLed s.cfg s.img p led s.buf)) := by
  refine execAll_map_of_withBuf
    (f := fun b ch => serChan s.cfg (fun k => (wires s.cfg s.img p led k).get ch) led ch b)
    (fun ch hch t hcfg _ => ?_) rfl rfl
  obtain ⟨channel, index⟩ := channel_of_mem_range ch hch
  rw [exec_serchan (hcfg ▸ h) (hcfg ▸ hl) channel, hcfg, index, serChan_stripBytes h]

/-- R160's loop, with its stops: no channel position of it is 3, and the other checks of ENCLED are those of each of its
SERCHANs. -/
theorem exec_encled_eq_serchans (s : State) (p led : Nat) :
    exec (.encled p led) s = execAll ((List.range 3).map fun c =>
      Instr.serchan led (BitVec.ofNat 2 c) (StripBytes.ofFn fun k => wireByte s.cfg s.img p led k c)) s := by
  have three : List.range 3 ≠ [] := by decide
  by_cases h : s.cfg.WellFormed
  · rcases Nat.lt_or_ge led s.cfg.ledsPerStrip with hl | hl
    · rw [exec_encled h hl, execAll_serchans h hl]
    · exact exec_eq_execAll_of_stop (exec_encled_ledOutOfRange h hl p)
        (fun ch hch => exec_serchan_ledOutOfRange h hl (channel_of_mem_range ch hch).1 _) (fun _ => nofun) three
  · exact exec_eq_execAll_of_stop (requireConfig_neg h _)
      (fun ch hch => exec_serchan_illFormed h (channel_of_mem_range ch hch).1 led _) (fun _ => nofun) three

/-- R165's byte at the index of its LED, channel position and pair. -/
theorem closedByte_bufIndex (c : Config) (img : Memory) (p led : Nat) {ch j : Nat} (hch : ch < 3) (hj : j < 4) :
    closedByte c img p (bufIndex led ch j) = closedPair c (fun k => wireByte c img p led k ch) j := by
  obtain ⟨hled, hchannel, hpair⟩ := (bufIndex_eq_iff (led := led) hch hj).mp rfl
  rw [closedByte, ← hled, ← hchannel, ← hpair]

/-- ENCLED on its twelve bytes (R159, R160). -/
theorem encLed_read_bufIndex (c : Config) (img : Memory) (p led : Nat) (b : Memory) {ch j : Nat} (hch : ch < 3)
    (hj : j < 4) : (encLed c img p led b).read (bufIndex led ch j) =
      b.read (bufIndex led ch j) ||| closedPair c (fun k => wireByte c img p led k ch) j := by
  obtain ⟨hled, -, -⟩ := (bufIndex_eq_iff (led := led) hch hj).mp rfl
  rw [encLed_read, if_pos hled.symm, closedByte_bufIndex c img p led hch hj]

/-- ENCLED on every other byte (R160). -/
theorem encLed_read_of_outside (c : Config) (img : Memory) (p : Nat) {led a : Nat} (b : Memory) (h : a / 12 ≠ led) :
    (encLed c img p led b).read a = b.read a := by
  rw [encLed_read, if_neg h]

/-- The wire bytes of a strip are the reordered colour of its quadrant (R160 steps 1a and 1b). -/
theorem wireByte_of_quadrant {c : Config} {k : Nat} {q : Quadrant} (h : c.stripAssignment[k]? = some q) (img : Memory)
    (p led ch : Nat) : wireByte c img p led k ch = (reorderColor (getColor c img p led q)).get ch := by
  rw [wireByte, Config.quadrant, List.getD_eq_getElem?_getD, h, Option.getD_some]

/-- Settles O27: ENCLED is its loop, stops included, and the index of a byte of the LED names its channel position and
pair. -/
theorem encledIsThreeSerchans : Obligations.EncledIsThreeSerchans := by
  refine ⟨exec_encled_eq_serchans, fun s p led k q h hq => ?wires,
    fun s p led h hl => ⟨_, exec_encled h hl p, fun a ha => ?frame⟩, fun p led => decodeOfEncode (.encled p led) rfl⟩
  case wires =>
    have byte := wireByte_of_quadrant hq s.img p led
    exact ⟨_, _, exec_getcolor h p led q, exec_reorder .., byte 0, byte 1, byte 2⟩
  case frame =>
    refine encLed_read_of_outside s.cfg s.img p s.buf fun hled => ha (a % 12 / 4) (by omega) (a % 4) (by omega) ?_
    exact ((bufIndex_eq_iff (by omega) (by omega)).mpr ⟨hled.symm, rfl, rfl⟩).symm

/-- Settles O28: what a read gives after `encLed`, inside its twelve bytes and outside. -/
theorem encledOrsTwelveBytes : Obligations.EncledOrsTwelveBytes := by
  intro s p led h hl
  exact ⟨_, exec_encled h hl p, fun ch hch j hj => encLed_read_bufIndex s.cfg s.img p led s.buf hch hj,
    fun a ha => encLed_read_of_outside s.cfg s.img p s.buf (by omega)⟩

/-! ## ENCODE -/

/-- ENCODE under a well-formed configuration: the reference check decides between the LED loop and no effect (R163,
R164). -/
theorem exec_encode_eq {s : State} (h : s.cfg.WellFormed) (p : Nat) (image buffer : Bool) :
    exec (.encode p image buffer) s = .next
      { s with
        buf := if image && buffer then encodeLeds s.cfg s.img p s.buf else s.buf
        result := .encStatus (if image && buffer then .ok else .invalidArgument) } := by
  rw [exec_encode h]
  rcases encodePattern_cases p image buffer s with ⟨rfl, rfl, e⟩ | ⟨absent, e⟩
  · rw [e]
    rfl
  · have refs : (image && buffer) = false := Bool.and_eq_false_iff.mpr absent
    rw [e, refs]
    rfl

/-- ENCODE with both references. -/
theorem exec_encode_present {s : State} (h : s.cfg.WellFormed) (p : Nat) :
    exec (.encode p true true) s =
      .next { s with buf := encodeLeds s.cfg s.img p s.buf, result := .encStatus .ok } :=
  exec_encode_eq h p true true

/-- ENCODE without one of the references (R163, R201). -/
theorem exec_encode_absent {s : State} (h : s.cfg.WellFormed) (p : Nat) {image buffer : Bool}
    (absent : image = false ∨ buffer = false) :
    exec (.encode p image buffer) s = .next { s with result := .encStatus .invalidArgument } := by
  have refs : (image && buffer) = false := Bool.and_eq_false_iff.mpr absent
  rw [exec_encode_eq h, refs]
  rfl

/-- R164's loop does not stop: its LEDs are those of the strip. -/
theorem execAll_encleds {s : State} (h : s.cfg.WellFormed) (p : Nat) :
    ∃ r, execAll ((List.range s.cfg.ledsPerStrip).map fun led => Instr.encled p led) s =
      .next { s with buf := encodeLeds s.cfg s.img p s.buf, result := r } := by
  refine ⟨_, execAll_map_of_withBuf (f := fun b led => encLed s.cfg s.img p led b) (fun led hled t hcfg himg => ?_)
    rfl rfl⟩
  rw [exec_encled (hcfg ▸ h) (hcfg ▸ List.mem_range.mp hled), hcfg, himg]

section
variable (c : Config) (img : Memory) (p : Nat) (b : Memory)

/-- ENCODE on a byte of the buffer, by the byte's LED, channel position and pair (R165, R166). -/
theorem encodeLeds_read_bufIndex {led ch j : Nat} (hled : led < c.ledsPerStrip) (hch : ch < 3) (hj : j < 4) :
    (encodeLeds c img p b).read (bufIndex led ch j) =
      b.read (bufIndex led ch j) ||| closedPair c (fun k => wireByte c img p led k ch) j := by
  rw [encodeLeds_read, if_pos (bufIndex_lt hled hch hj), closedByte_bufIndex c img p led hch hj]

/-- ENCODE outside the buffer (R164). -/
theorem encodeLeds_read_of_outside {a : Nat} (h : c.bufLen ≤ a) : (encodeLeds c img p b).read a = b.read a := by
  rw [encodeLeds_read, if_neg (Nat.not_lt.mpr h)]

/-- R165: on a byte that was zero ENCODE leaves the closed form. -/
theorem encodeLeds_read_of_zero {led ch j : Nat} (hled : led < c.ledsPerStrip) (hch : ch < 3) (hj : j < 4)
    (hzero : b.read (bufIndex led ch j) = 0) :
    (encodeLeds c img p b).read (bufIndex led ch j) = closedPair c (fun k => wireByte c img p led k ch) j := by
  rw [encodeLeds_read_bufIndex c img p b hled hch hj, hzero, BitVec.ofNat_eq_ofNat, BitVec.zero_or]

end

/-- Settles O29: the LED loop of ENCODE is the loop over the ENCLEDs. -/
theorem encodeIsEncledPerLed : Obligations.EncodeIsEncledPerLed := by
  intro s p h
  obtain ⟨r, loop⟩ := execAll_encleds h p
  exact ⟨fun image buffer => exec_encode_absent h p,
    ⟨_, loop, exec_encode_present h p, fun a ha => encodeLeds_read_of_outside s.cfg s.img p s.buf ha⟩,
    fun m b => decodeOfEncode (.encode p m b) rfl⟩

/-- Settles O31: zero ORed with the closed form is the closed form, and ZEROBUF makes every byte of the buffer zero. -/
theorem encodeClosedFormOnZeroedBuffer : Obligations.EncodeClosedFormOnZeroedBuffer := by
  refine ⟨fun s p h zeroed => ⟨_, exec_encode_present h p, fun led ch j hled hch hj => ?_, fun a ha => ?_⟩,
    fun s p h => ?_⟩
  · exact encodeLeds_read_of_zero s.cfg s.img p s.buf hled hch hj (zeroed _ (bufIndex_lt hled hch hj))
  · exact encodeLeds_read_of_outside s.cfg s.img p s.buf ha
  · have zero := exec_zerobuf h
    have encode := exec_encode_present (s := s.withBuf (zeroBytes s.cfg s.buf)) h p
    refine ⟨_, execAll_pair zero encode, rfl, rfl, rfl, rfl, fun led ch j hled hch hj => ?_,
      fun a ha => ?_⟩
    · refine encodeLeds_read_of_zero s.cfg s.img p _ hled hch hj ?_
      exact (zeroBytes_read s.cfg s.buf _).trans (if_pos (bufIndex_lt hled hch hj))
    · refine (encodeLeds_read_of_outside s.cfg s.img p _ ha).trans ?_
      exact (zeroBytes_read s.cfg s.buf a).trans (if_neg (Nat.not_lt.mpr ha))

/-- Settles O32: ENCODE is an OR, and two ORs into zero are the OR of both. -/
theorem encodeKeepsStaleBits : Obligations.EncodeKeepsStaleBits := by
  refine ⟨fun s p h => ⟨_, exec_encode_present h p, encodeLeds_read s.cfg s.img p s.buf⟩, fun s p p' h zeroed => ?_⟩
  have first := exec_encode_present h p
  have second := exec_encode_present
    (s := { s with buf := encodeLeds s.cfg s.img p s.buf, result := .encStatus .ok }) h p'
  refine ⟨_, execAll_pair first second, fun a ha => ?_⟩
  have inside : a < s.cfg.bufLen := ha
  simp [encodeLeds_read, inside, zeroed a ha]

/-- Settles O33: the equation of ENCODE names no other field of the state. -/
theorem encodeIsDeterministic : Obligations.EncodeIsDeterministic := by
  intro s t p image buffer h hcfg himg hbuf
  refine ⟨_, _, exec_encode_eq h p image buffer, ?_⟩
  rw [hcfg, himg, hbuf]
  exact exec_encode_eq (hcfg ▸ h) p image buffer

/-! ## Strips without a 1 bit (R170, R171) -/

theorem closedPair_of_silent {c : Config} {wire : Nat → Byte} (h : ∀ k < c.numStrips, wire k = 0) (j : Nat) :
    closedPair c wire j = 0 := by
  apply BitVec.eq_of_getLsbD_eq
  intro pos _
  rw [Bool.eq_iff_iff, closedPair_getLsbD]
  constructor
  · rintro ⟨k, hk, ⟨-, hbit⟩ | ⟨-, hbit⟩⟩ <;> simp [h k hk] at hbit
  · simp

/-- Where no strip of the image has a 1 bit for the pattern, ENCODE leaves every byte. -/
theorem encodeLeds_read_of_silent {c : Config} {img : Memory} {p : Nat}
    (h : ∀ k < c.numStrips, ∀ led ch, wireByte c img p led k ch = 0) (b : Memory) (a : Nat) :
    (encodeLeds c img p b).read a = b.read a := by
  have silent : closedByte c img p a = 0 := closedPair_of_silent (fun k hk => h k hk _ _) _
  simp [encodeLeds_read, silent]

/-- R170: a strip's wire bytes for a pattern out of range are those of black. -/
theorem wireByte_of_pattern_outOfRange {c : Config} {p : Nat} (h : c.bitmatrixPatterns ≤ p) (img : Memory)
    (led k ch : Nat) : wireByte c img p led k ch = 0 := by
  rw [wireByte, getColor_of_resolve_none (resolve_of_absent (.inr h) _)]
  unfold Wire3.get
  split <;> rfl

theorem encodeLeds_wf {c : Config} {img : Memory} {p : Nat} {b : Memory} (h : b.wf) : (encodeLeds c img p b).wf :=
  foldl_keeps h fun _ _ _ hled => foldl_keeps hled fun _ _ _ hchannel => foldl_keeps hchannel fun _ _ _ hbit =>
    Memory.wf_or hbit _ _

/-- Settles O35: every strip is black, and canonical buffers that read alike are equal. -/
theorem encodePatternOutOfRange : Obligations.EncodePatternOutOfRange := by
  intro s p h hp
  have unchanged := encodeLeds_read_of_silent (fun k _ led ch => wireByte_of_pattern_outOfRange hp s.img led k ch) s.buf
  exact ⟨_, exec_encode_present h p, unchanged, fun canonical =>
    Memory.ext_of_read (encodeLeds_wf canonical) canonical unchanged⟩

/-- Without strips the image is not read. -/
theorem encodeLeds_congr_of_no_strips {c : Config} (h : c.numStrips = 0) (img img' : Memory) (p : Nat) (b : Memory) :
    encodeLeds c img p b = encodeLeds c img' p b := by
  have same (led ch : Nat) (b : Memory) : serChan c (fun k => (wires c img p led k).get ch) led ch b =
      serChan c (fun k => (wires c img' p led k).get ch) led ch b := serChan_congr (fun k hk => by omega) led ch b
  simp only [encodeLeds, encLed, same]

/-- Settles O36: a loop over no LEDs does nothing, and no strips have no bits and read no pixel. -/
theorem encodeDegenerateConfigurations : Obligations.EncodeDegenerateConfigurations := by
  refine ⟨fun s p image buffer h noLeds => ?_, fun s p h noStrips => ⟨encodeLeds s.cfg s.img p s.buf, fun img => ?_,
    encodeLeds_read_of_silent (fun k hk => by omega) s.buf⟩⟩
  · have nothing : encodeLeds s.cfg s.img p s.buf = s.buf := by rw [encodeLeds, noLeds]; rfl
    rw [exec_encode_eq h, nothing, ite_self]
  · rw [encodeLeds_congr_of_no_strips noStrips s.img img]
    exact exec_encode_present (s := { s with img := img }) h p

/-! ## Lanes (R169, R172) -/

section
variable {c : Config} {pos : Nat} (h : ∀ k < c.numStrips, c.laneMap 0 k ≠ pos ∧ c.laneMap 1 k ≠ pos)
include h

theorem closedPair_getLsbD_of_unused (wire : Nat → Byte) (j : Nat) : (closedPair c wire j).getLsbD pos = false := by
  rw [Bool.eq_false_iff, ne_eq, closedPair_getLsbD]
  rintro ⟨k, hk, ⟨lane, -⟩ | ⟨lane, -⟩⟩
  · exact (h k hk).1 lane
  · exact (h k hk).2 lane

theorem encodeLeds_getLsbD_of_unused (img : Memory) (p : Nat) (b : Memory) (a : Nat) :
    ((encodeLeds c img p b).read a).getLsbD pos = (b.read a).getLsbD pos := by
  have unused : (closedByte c img p a).getLsbD pos = false := closedPair_getLsbD_of_unused h _ _
  rw [encodeLeds_read]
  split <;> simp [unused]

end

/-- Under the default map of R10, a zero byte is left zero at the positions `4 + k` and `k` of no strip `k`. -/
theorem encodeLeds_and_mask_of_defaultLanes {c : Config} {n : Nat} (hn : n ≤ 4) (hstrips : c.numStrips = n)
    (hfirst : c.laneFirst = upperLanes n) (hsecond : c.laneSecond = lowerLanes n) {mask : Byte}
    (hmask : ∀ pos < 8, mask.getLsbD pos = true → ∀ k < n, 4 + k ≠ pos ∧ k ≠ pos) {b : Memory} {a : Nat}
    (hzero : b.read a = 0) (img : Memory) (p : Nat) : (encodeLeds c img p b).read a &&& mask = 0 := by
  apply BitVec.eq_of_getLsbD_eq
  intro pos hpos
  by_cases masked : mask.getLsbD pos = true
  · have unused : ∀ k < c.numStrips, c.laneMap 0 k ≠ pos ∧ c.laneMap 1 k ≠ pos := fun k hk => by
      have hk : k < n := hstrips ▸ hk
      have first : c.laneMap 0 k = 4 + k := by rw [Config.laneMap, hfirst]; exact upperLanes_getD hn hk
      have second : c.laneMap 1 k = k := by rw [Config.laneMap, hsecond]; exact lowerLanes_getD hn hk
      rw [first, second]
      exact hmask pos hpos masked k hk
    rw [BitVec.getLsbD_and, encodeLeds_getLsbD_of_unused unused, hzero]
    simp
  · simp [masked]

/-- The bytes with nothing outside bits 4 and 0. -/
theorem mem_of_and_mask : ∀ v : Byte, v &&& 0b11101110 = 0 → v ∈ [(0x00 : Byte), 0x01, 0x10, 0x11] := by decide

/-- Settles O34: ENCODE's byte has no bit outside the lanes; one strip has the lanes 4 and 0, two have 5, 4, 1 and 0. -/
theorem unusedLanesNeverSet : Obligations.UnusedLanesNeverSet := by
  refine ⟨fun s p a pos h unused => ⟨_, exec_encode_present h p, ?_⟩,
    fun s p a h hstrips hfirst hsecond _ hzero => ⟨_, exec_encode_present h p, mem_of_and_mask _ ?_⟩,
    fun s p a h hstrips hfirst hsecond _ hzero => ⟨_, exec_encode_present h p, ?_⟩⟩
  · exact encodeLeds_getLsbD_of_unused unused s.img p s.buf a
  · exact encodeLeds_and_mask_of_defaultLanes (by decide) hstrips hfirst hsecond (by decide) hzero s.img p
  · exact encodeLeds_and_mask_of_defaultLanes (by decide) hstrips hfirst hsecond (by decide) hzero s.img p

/-- R172: at a strip's lane stands the strip's own bit, since no other strip and no other sub-bit has that lane. -/
theorem closedPair_getLsbD_lane {c : Config} (h : c.WellFormed) {sub k : Nat} (hsub : sub < 2) (hk : k < c.numStrips)
    (wire : Nat → Byte) (j : Nat) :
    (closedPair c wire j).getLsbD (c.laneMap sub k) = (wire k).getLsbD (7 - (2 * j + sub)) := by
  rw [Bool.eq_iff_iff, closedPair_getLsbD]
  constructor
  · rintro ⟨k', hk', ⟨lane, hbit⟩ | ⟨lane, hbit⟩⟩
    · obtain ⟨rfl, rfl⟩ := laneMap_inj h (by decide) hsub hk' hk lane
      exact hbit
    · obtain ⟨rfl, rfl⟩ := laneMap_inj h (by decide) hsub hk' hk lane
      rwa [show 7 - (2 * j + 1) = 6 - 2 * j by omega]
  · intro hbit
    obtain rfl | rfl : sub = 0 ∨ sub = 1 := by omega
    · exact ⟨k, hk, .inl ⟨rfl, hbit⟩⟩
    · exact ⟨k, hk, .inr ⟨rfl, by rwa [show 6 - 2 * j = 7 - (2 * j + 1) by omega]⟩⟩

/-- Settles O37: each byte of a zeroed buffer becomes the closed form, which has each strip's bit at its own lane. -/
theorem lanesNeverInteract : Obligations.LanesNeverInteract := by
  intro s p h zeroed
  refine ⟨_, exec_encode_present h p, fun led ch j sub k hled hch hj hsub hk => ?_⟩
  have byte := encodeLeds_read_of_zero s.cfg s.img p s.buf hled hch hj (zeroed _ (bufIndex_lt hled hch hj))
  exact (congrArg (BitVec.getLsbD · _) byte).trans (closedPair_getLsbD_lane h hsub hk _ j)

end Sys2Proof.Machine

/-! SUPPORT. The proofs of the statements of 43_pattern_sequencer.md: ZEROBUF, PERSIST and TRANSMIT (R181 to R183), RUN
as the operations it invokes (R185), and what RUN persists (R186 to R188). -/

namespace Sys2Proof.Machine

/-! ## ZEROBUF, PERSIST and TRANSMIT -/

/-- Settles O39: what a read gives after ZEROBUF's loop, inside the buffer and outside. -/
theorem zerobufZeroesTheBuffer : Obligations.ZerobufZeroesTheBuffer := by
  intro s h
  refine ⟨zeroBytes s.cfg s.buf, exec_zerobuf h, fun a ha => ?_, fun a ha => ?_, decodeOfEncode .zerobuf rfl⟩
  · exact (zeroBytes_read s.cfg s.buf a).trans (if_pos ha)
  · exact (zeroBytes_read s.cfg s.buf a).trans (if_neg (Nat.not_lt.mpr ha))

section
variable {s t : State}

theorem persistBuf_of_draw_ok (h : drawAnswer s = (t, .ok)) :
    persistBuf s = ({ t with persisted := t.persisted ++ [bufCopy s] }, .ok) := by
  simp only [persistBuf, h]

theorem persistBuf_of_draw_fail (h : drawAnswer s = (t, .fail)) : persistBuf s = (t, .fail) := by
  simp only [persistBuf, h]

end

/-- Wherever the answer `a` comes from, PERSIST moves on the answers to `rest` and the counter to `n`, and the answer
decides whether the buffer is appended (R182). -/
theorem exec_persist_of_draw {s : State} (h : s.cfg.WellFormed) {a : Answer} {rest : List Answer} {n : Nat}
    (draw : drawAnswer s = ({ s with answers := rest, draws := n }, a)) :
    (a = .ok → exec .persist s = .next { s with
      answers := rest, draws := n, result := .answer .ok, persisted := s.persisted ++ [bufCopy s] }) ∧
    (a = .fail → exec .persist s = .next { s with answers := rest, draws := n, result := .answer .fail }) := by
  constructor <;> rintro rfl
  · rw [exec_persist h, persistBuf_of_draw_ok draw, State.withResult]
  · rw [exec_persist h, persistBuf_of_draw_fail draw, State.withResult]

/-- Settles O40: the answer is the next scheduled one or a free one, and PERSIST treats both alike. -/
theorem persistAppendsOnOk : Obligations.PersistAppendsOnOk := by
  intro s h
  rcases drawAnswer_cases s with ⟨a, rest, scheduled, draw⟩ | ⟨unscheduled, draw⟩
  · obtain ⟨ok, fail⟩ := exec_persist_of_draw h draw
    exact ⟨a, rest, s.draws, .inl ⟨scheduled, rfl⟩, ok, fail, decodeOfEncode .persist rfl⟩
  · have draw : drawAnswer s = ({ s with answers := [], draws := s.draws + 1 }, Config.freeAnswer s.draws) :=
      unscheduled ▸ draw
    obtain ⟨ok, fail⟩ := exec_persist_of_draw h draw
    exact ⟨_, [], _, .inr ⟨unscheduled, rfl, rfl, rfl⟩, ok, fail, decodeOfEncode .persist rfl⟩

/-- Settles O41: the decoder reads the word, and the step passes on TRANSMIT's refusal. -/
theorem transmitHasNoStep : Obligations.TransmitHasNoStep :=
  have word := decodeOfEncode .transmit rfl
  ⟨fun _ => rfl, word, fun _ _ hp => step_of_decoded hp word⟩

/-! ## One iteration of RUN, by what its references and its answer are -/

/-- The state in which RUN asks for PERSIST of pattern `p`: the buffer is zeroed and encoded into (R185). -/
def State.encoded (s : State) (p : Nat) : State :=
  { s with buf := encodeLeds s.cfg s.img p (zeroBytes s.cfg s.buf) }

/-- A byte of the buffer RUN asks to persist (R165, R188). -/
theorem encoded_buf_read (s : State) (p : Nat) {a : Nat} (ha : a < s.cfg.bufLen) :
    (s.encoded p).buf.read a = closedByte s.cfg s.img p a := by
  simp [State.encoded, encodeLeds_read, zeroBytes_read, ha]

/-- The copy PERSIST takes there is the closed form (R188). -/
theorem bufCopy_encoded (s : State) (p : Nat) : bufCopy (s.encoded p) = closedBuffer s.cfg s.img p :=
  bufCopy_of_encoded s p

section
variable {image : Bool} {absent : Option Nat} {p : Nat} (ps : List Nat) (s : State)

/-- An absent buffer: nothing is zeroed and the ENCODE fails (R184, R185). -/
theorem runFrom_cons_of_bufferAbsent (ha : absent = some p) :
    runFrom image absent (p :: ps) s = (s, .failure) := by
  rcases runFrom_cons image absent p ps s with ⟨-, e⟩ | ⟨-, present, -⟩
  · simpa [ha, zeroIfPresent] using e
  · exact absurd ha present

/-- An absent image: the buffer is zeroed and the ENCODE fails (R185, R210). -/
theorem runFrom_cons_of_imageAbsent (ha : absent ≠ some p) :
    runFrom false absent (p :: ps) s = ({ s with buf := zeroBytes s.cfg s.buf }, .failure) := by
  rcases runFrom_cons false absent p ps s with ⟨-, e⟩ | ⟨present, -⟩
  · simpa [bne_iff_ne.mpr ha, zeroIfPresent] using e
  · exact absurd present Bool.false_ne_true

/-- A failed PERSIST ends the run (R185). -/
theorem runFrom_cons_of_answer_fail (ha : absent ≠ some p) (answer : (persistBuf (s.encoded p)).2 = .fail) :
    runFrom true absent (p :: ps) s = ((persistBuf (s.encoded p)).1, .failure) := by
  rcases runFrom_cons true absent p ps s with ⟨missing, -⟩ | ⟨-, -, t, rfl, ⟨-, e⟩ | ⟨other, -⟩⟩
  · exact absurd missing (not_or.mpr ⟨nofun, ha⟩)
  · exact e
  · cases other.symm.trans answer

/-- After PERSIST succeeds the next pattern is attempted (R185). -/
theorem runFrom_cons_of_answer_ok (ha : absent ≠ some p) (answer : (persistBuf (s.encoded p)).2 = .ok) :
    runFrom true absent (p :: ps) s = runFrom true absent ps (persistBuf (s.encoded p)).1 := by
  rcases runFrom_cons true absent p ps s with ⟨missing, -⟩ | ⟨-, -, t, rfl, ⟨other, -⟩ | ⟨-, e⟩⟩
  · exact absurd missing (not_or.mpr ⟨nofun, ha⟩)
  · cases other.symm.trans answer
  · exact e

end

/-! ## RUN as its operations -/

/-- PERSIST does not look at the result of the operation before it. -/
theorem persistBuf_withResult (s : State) (r : Result) :
    persistBuf (s.withResult r) = ((persistBuf s).1.withResult r, (persistBuf s).2) := by
  rcases s with ⟨cfg, img, buf, persisted, result, pending, _ | ⟨a, rest⟩, draws⟩
  · cases free : Config.freeAnswer draws <;> simp [persistBuf, drawAnswer, State.withResult, bufCopy, free]
  · cases a <;> rfl

/-- PERSIST under a well-formed configuration, after an operation that handed back `r`. -/
theorem exec_persist_withResult {s : State} (h : s.cfg.WellFormed) (r : Result) :
    exec .persist (s.withResult r) = .next ((persistBuf s).1.withResult (.answer (persistBuf s).2)) := by
  rw [exec_persist (s := s.withResult r) h, persistBuf_withResult]
  rfl

/-- RUN's loop is the operations R185 invokes. Each of them hands back a result, which the loop does not store, so the
states agree but for the result. -/
theorem runSteps_of_runFrom {s t : State} (h : s.cfg.WellFormed) {image : Bool} {absent : Option Nat} {ps : List Nat}
    {st : RunStatus} (run : runFrom image absent ps s = (t, st)) (r : Result) :
    ∃ r', RunSteps image absent ps (s.withResult r) (t.withResult r') st := by
  induction ps generalizing s r with
  | nil =>
    cases run
    exact ⟨r, .done _⟩
  | cons p ps ih =>
    by_cases ha : absent = some p
    · have encode := exec_encode_absent (s := s.withResult r) h p (image := image) (.inr rfl)
      cases (runFrom_cons_of_bufferAbsent ps s ha).symm.trans run
      exact ⟨_, .bufferAbsent p ps _ _ ha encode rfl⟩
    have zero := exec_zerobuf (s := s.withResult r) h
    cases image with
    | false =>
      have encode := exec_encode_absent (s := s.withBuf (zeroBytes s.cfg s.buf)) h p (buffer := true) (.inl rfl)
      cases (runFrom_cons_of_imageAbsent ps s ha).symm.trans run
      exact ⟨_, .encodeFails p ps _ _ _ ha zero encode rfl⟩
    | true =>
      have encode := exec_encode_present (s := s.withBuf (zeroBytes s.cfg s.buf)) h p
      have persist := exec_persist_withResult (s := s.encoded p) h (.encStatus .ok)
      cases answer : (persistBuf (s.encoded p)).2 with
      | fail =>
        rw [answer] at persist
        cases (runFrom_cons_of_answer_fail ps s ha answer).symm.trans run
        exact ⟨_, .persistFails p ps _ _ _ _ ha zero encode rfl persist rfl⟩
      | ok =>
        rw [answer] at persist
        obtain ⟨hcfg, -⟩ := persistBuf_keeps (s.encoded p)
        obtain ⟨r', steps⟩ := ih (hcfg ▸ h) ((runFrom_cons_of_answer_ok ps s ha answer).symm.trans run) (.answer .ok)
        exact ⟨r', .goesOn p ps _ _ _ _ _ _ ha zero encode rfl persist rfl steps⟩

/-- RUN is its loop over all patterns, and the loop's status. -/
theorem exec_run_of_runFrom {s t : State} (h : s.cfg.WellFormed) {image : Bool} {absent : Option Nat} {st : RunStatus}
    (run : runFrom image absent (List.range s.cfg.bitmatrixPatterns) s = (t, st)) :
    exec (.run image absent) s = .next (t.withResult (.runStatus st)) := by
  rw [exec_run h, runPatterns, run]

/-- Settles O42: RUN's loop over all patterns, from the state as it stands. -/
theorem runIsItsOperations : Obligations.RunIsItsOperations := by
  intro s image absent h
  obtain ⟨r, steps⟩ := runSteps_of_runFrom h rfl s.result
  exact ⟨_, _, steps, exec_run h image absent, decodeOfEncode (.run image absent) rfl⟩

/-! ## What RUN persists, whatever the answers -/

/-- One iteration, whatever patterns are still to come: it ends the run with `PERSISTED` as it was, or it persists the
closed form of its pattern and goes on (R186, R188). -/
theorem runFrom_cons_cases (image : Bool) (absent : Option Nat) (p : Nat) (s : State) :
    (∃ v, (∀ ps, runFrom image absent (p :: ps) s = (v, .failure)) ∧ v.persisted = s.persisted) ∨
    (∃ u, (∀ ps, runFrom image absent (p :: ps) s = runFrom image absent ps u) ∧ u.cfg = s.cfg ∧ u.img = s.img ∧
      u.persisted = s.persisted ++ [closedBuffer s.cfg s.img p]) := by
  by_cases ha : absent = some p
  · exact .inl ⟨s, fun ps => runFrom_cons_of_bufferAbsent ps s ha, rfl⟩
  cases image with
  | false => exact .inl ⟨_, fun ps => runFrom_cons_of_imageAbsent ps s ha, rfl⟩
  | true =>
    rcases persistBuf_persisted (s.encoded p) with ⟨answer, copied⟩ | ⟨answer, same⟩
    · obtain ⟨hcfg, himg, -⟩ := persistBuf_keeps (s.encoded p)
      refine .inr ⟨_, fun ps => runFrom_cons_of_answer_ok ps s ha answer, hcfg, himg, ?_⟩
      rw [copied, bufCopy_encoded, State.encoded]
    · exact .inl ⟨_, fun ps => runFrom_cons_of_answer_fail ps s ha answer, same⟩

/-- RUN's loop persists the closed form of every pattern, or of those before the pattern `p` that ends it. -/
theorem runFrom_cases (image : Bool) (absent : Option Nat) (ps : List Nat) (s : State) :
    (∃ t, runFrom image absent ps s = (t, .success) ∧
      t.persisted = s.persisted ++ ps.map (closedBuffer s.cfg s.img)) ∨
    (∃ qs p rest u v, ps = qs ++ p :: rest ∧ runFrom image absent ps s = (v, .failure) ∧
      runFrom image absent qs s = (u, .success) ∧ runFrom image absent [p] u = (v, .failure) ∧
      v.persisted = s.persisted ++ qs.map (closedBuffer s.cfg s.img)) := by
  induction ps generalizing s with
  | nil => exact .inl ⟨s, rfl, by simp⟩
  | cons p ps ih =>
    rcases runFrom_cons_cases image absent p s with ⟨v, ends, same⟩ | ⟨u, goesOn, hcfg, himg, copied⟩
    · exact .inr ⟨[], p, ps, s, v, rfl, ends ps, rfl, ends [], by simp [same]⟩
    · rcases ih u with ⟨t, whole, persisted⟩ | ⟨qs, q, rest, w, v, rfl, whole, first, last, persisted⟩
      · exact .inl ⟨t, (goesOn ps).trans whole, by simp [persisted, hcfg, himg, copied]⟩
      · exact .inr ⟨p :: qs, q, rest, w, v, rfl, (goesOn _).trans whole, (goesOn qs).trans first, last,
          by simp [persisted, hcfg, himg, copied]⟩

/-- Where the patterns of a run are split at `p`, those before it are those below it. -/
theorem eq_range_of_range_eq_append_cons {n p : Nat} {qs rest : List Nat} (h : List.range n = qs ++ p :: rest) :
    qs = List.range p ∧ p < n := by
  rw [List.range_eq_range', List.range'_eq_append_iff] at h
  obtain ⟨k, -, rfl, tail⟩ := h
  obtain ⟨hp, hlt, -⟩ := List.range'_eq_cons_iff.mp tail.symm
  obtain rfl : k = p := by omega
  exact ⟨List.range_eq_range'.symm, by omega⟩

/-- Settles O43: the pattern that ends the loop is the number of patterns before it, and each part of the loop is the
operations R185 invokes. -/
theorem runKeepsEarlierPatterns : Obligations.RunKeepsEarlierPatterns := by
  intro s image absent h
  rcases runFrom_cases image absent (List.range s.cfg.bitmatrixPatterns) s with
    ⟨t, whole, persisted⟩ | ⟨qs, p, rest, u, v, split, whole, first, last, persisted⟩
  · have run := exec_run_of_runFrom h whole
    obtain ⟨hcfg, himg, hpending⟩ := exec_keeps run
    exact ⟨_, .success, _, run, rfl, hcfg, himg, hpending, persisted, fun _ => rfl, nofun⟩
  · have run := exec_run_of_runFrom h whole
    obtain ⟨hcfg, himg, hpending⟩ := exec_keeps run
    obtain ⟨rfl, hp⟩ := eq_range_of_range_eq_append_cons split
    obtain ⟨r, before⟩ := runSteps_of_runFrom h first s.result
    obtain ⟨ucfg, -⟩ := runFrom_keeps image absent (List.range p) s
    rw [first] at ucfg
    obtain ⟨r', failing⟩ := runSteps_of_runFrom (ucfg ▸ h) last r
    exact ⟨_, .failure, p, run, rfl, hcfg, himg, hpending, persisted, nofun,
      fun _ => ⟨hp, _, _, before, failing, rfl⟩⟩

/-! ## Scheduled answers -/

/-- A scheduled ok: the closed form of the pattern is persisted and the next pattern is attempted (R188). -/
theorem runFrom_cons_of_ok {absent : Option Nat} {p : Nat} (ha : absent ≠ some p) (ps : List Nat) {s : State}
    {rest : List Answer} (scheduled : s.answers = .ok :: rest) :
    runFrom true absent (p :: ps) s = runFrom true absent ps { s.encoded p with
      answers := rest, persisted := s.persisted ++ [closedBuffer s.cfg s.img p] } := by
  have draw : drawAnswer (s.encoded p) = ({ s.encoded p with answers := rest }, .ok) := by
    simp only [drawAnswer, State.encoded, scheduled]
  have answer := persistBuf_of_draw_ok draw
  rw [runFrom_cons_of_answer_ok ps s ha (congrArg Prod.snd answer), answer, bufCopy_encoded, State.encoded]

/-- Patterns whose answers are all ok are persisted in order, and the run goes on with the patterns after them. -/
theorem runFrom_append_of_oks (qs ps : List Nat) {s : State} {rest : List Answer}
    (scheduled : s.answers = List.replicate qs.length .ok ++ rest) :
    ∃ b, runFrom true none (qs ++ ps) s = runFrom true none ps { s with
      buf := b, answers := rest, persisted := s.persisted ++ qs.map (closedBuffer s.cfg s.img) } := by
  induction qs generalizing s with
  | nil =>
    obtain rfl : s.answers = rest := scheduled
    exact ⟨s.buf, by simp⟩
  | cons q qs ih =>
    have first := runFrom_cons_of_ok (absent := none) (p := q) nofun (qs ++ ps) scheduled
    obtain ⟨b, others⟩ := ih (s := { s.encoded q with
      answers := List.replicate qs.length .ok ++ rest
      persisted := s.persisted ++ [closedBuffer s.cfg s.img q] }) rfl
    exact ⟨b, by simpa [State.encoded] using first.trans others⟩

/-- Settles O44: all patterns have the answer ok, and none is left after them. -/
theorem runPersistsEveryPattern : Obligations.RunPersistsEveryPattern := by
  intro s rest h scheduled
  obtain ⟨b, run⟩ := runFrom_append_of_oks (List.range s.cfg.bitmatrixPatterns) [] (s := s) (rest := rest)
    (by rwa [List.length_range])
  rw [List.append_nil] at run
  exact ⟨b, exec_run_of_runFrom h run⟩

/-- Settles O45: pattern 0 goes on, and pattern 1 ends the run where it found it. -/
theorem runForcedFailurePersistsOne : Obligations.RunForcedFailurePersistsOne := by
  intro s rest h patterns scheduled
  have three : List.range s.cfg.bitmatrixPatterns = [0, 1, 2] := by rw [patterns]; rfl
  have goesOn := runFrom_cons_of_ok (absent := some 1) (p := 0) (by decide) [1, 2] scheduled
  have run := goesOn.trans (runFrom_cons_of_bufferAbsent [2] _ rfl)
  rw [← three] at run
  exact ⟨_, exec_run_of_runFrom h run, fun a ha => encoded_buf_read s 0 ha⟩

/-! ## Corner cases -/

/-- Settles O47: no patterns are no iteration; an absent image ends the run at pattern 0, with the buffer zeroed unless
its reference is absent too. -/
theorem runCornerCases : Obligations.RunCornerCases := by
  refine ⟨fun s image absent h empty => ?_, fun s absent h nonempty => ?_⟩
  · have run : runFrom image absent (List.range s.cfg.bitmatrixPatterns) s = (s, .success) := by rw [empty]; rfl
    exact exec_run_of_runFrom h run
  · obtain ⟨n, patterns⟩ := Nat.exists_eq_add_one.mpr nonempty
    have first : List.range s.cfg.bitmatrixPatterns = 0 :: (List.range n).map Nat.succ := by
      rw [patterns, List.range_succ_eq_map]
    by_cases ha : absent = some 0
    · have run := runFrom_cons_of_bufferAbsent (image := false) ((List.range n).map Nat.succ) s ha
      rw [← first] at run
      exact ⟨s.buf, exec_run_of_runFrom h run, absurd ha, fun _ => rfl⟩
    · have run := runFrom_cons_of_imageAbsent ((List.range n).map Nat.succ) s ha
      rw [← first] at run
      exact ⟨zeroBytes s.cfg s.buf, exec_run_of_runFrom h run,
        fun _ a inside => (zeroBytes_read s.cfg s.buf a).trans (if_pos inside), fun absent => absurd absent ha⟩

end Sys2Proof.Machine

/-! SUPPORT. The proofs of the statements of 60_exceptions.md: INVALID_ARGUMENT, which only ENCODE hands back (R201), and
RUN at a failed PERSIST (R204). -/

namespace Sys2Proof.Machine

/-! ## INVALID_ARGUMENT -/

/-- ENCODE hands back INVALID_ARGUMENT only where a reference is absent (R201). -/
theorem encodePattern_status_eq_invalidArgument {p : Nat} {image buffer : Bool} {s : State}
    (h : (encodePattern p image buffer s).2 = .invalidArgument) : image = false ∨ buffer = false := by
  rcases encodePattern_cases p image buffer s with ⟨-, -, e⟩ | ⟨absent, -⟩
  · cases h.symm.trans (congrArg Prod.snd e)
  · exact absent

/-- Settles O30: of all an operation can hand back, only ENCODE's status can be INVALID_ARGUMENT. -/
theorem invalidArgumentHasNoSideEffect : Obligations.InvalidArgumentHasNoSideEffect := by
  refine ⟨fun s p image buffer h absent => exec_encode_absent h p absent, fun i s t h invalid => ?_⟩
  rcases exec_cases h with
    ⟨r, rfl, other⟩ | ⟨b, rfl, -⟩ | ⟨p, image, buffer, rfl, rfl⟩ | ⟨-, rfl⟩ | ⟨image, absent, -, rfl⟩
  · exact absurd invalid other
  · cases (State.withBuf_result ..).symm.trans invalid
  · exact ⟨p, image, buffer, rfl, encodePattern_status_eq_invalidArgument (Result.encStatus.inj invalid)⟩
  · cases (State.withResult_result ..).symm.trans invalid
  · cases (State.withResult_result ..).symm.trans invalid

/-! ## RUN at a failed PERSIST -/

/-- A scheduled fail: the run ends with nothing more persisted and no further answer taken (R204). -/
theorem runFrom_cons_of_fail {absent : Option Nat} {p : Nat} (ha : absent ≠ some p) (ps : List Nat) {s : State}
    {rest : List Answer} (scheduled : s.answers = .fail :: rest) :
    runFrom true absent (p :: ps) s = ({ s.encoded p with answers := rest }, .failure) := by
  have draw : drawAnswer (s.encoded p) = ({ s.encoded p with answers := rest }, .fail) := by
    simp only [drawAnswer, State.encoded, scheduled]
  have answer := persistBuf_of_draw_fail draw
  rw [runFrom_cons_of_answer_fail ps s ha (congrArg Prod.snd answer), answer]

/-- The patterns of a run are those below `p`, then `p`, then some more. -/
theorem exists_range_eq_append_cons {n p : Nat} (h : p < n) : ∃ ps, List.range n = List.range p ++ p :: ps := by
  obtain ⟨k, rfl⟩ := Nat.exists_eq_add_of_lt h
  rw [Nat.add_assoc, List.range_add, List.range_succ_eq_map, List.map_cons]
  exact ⟨_, rfl⟩

/-- Settles O46: the patterns below `p` are persisted in order, and `p` ends the run. -/
theorem runStopsAtFailedPersist : Obligations.RunStopsAtFailedPersist := by
  intro s p rest h hp scheduled
  obtain ⟨ps, split⟩ := exists_range_eq_append_cons hp
  obtain ⟨b, earlier⟩ := runFrom_append_of_oks (List.range p) (p :: ps) (s := s) (rest := .fail :: rest)
    (by rwa [List.length_range])
  have run := earlier.trans (runFrom_cons_of_fail (absent := none) (p := p) nofun ps rfl)
  rw [← split] at run
  exact ⟨_, exec_run_of_runFrom h run⟩

end Sys2Proof.Machine
